-- ==== Sys2Proof/Word.lean ====
section
/-! DEFINITION. The widths of the CORE's values as names (00_scope.md R9, R13). -/

namespace Sys2Proof

/-- One payload byte or State cell, `u8` (00_scope.md R9: STATE_W). -/
abbrev Byte := BitVec 8

/-- An Identifier, `ID_W = 8` bits (00_scope.md R9). -/
abbrev Identifier := BitVec 8

/-- An object index or counter select, `IDX_W = 8` bits (00_scope.md R9). -/
abbrev Index := BitVec 8

/-- A 16-bit Value cell, two's complement (00_scope.md R9: V16_W). -/
abbrev Half := BitVec 16

/-- A 32-bit Value cell, Timestamp, counter or operand (00_scope.md R9: V32_W, TS_W, CNT_W). -/
abbrev Word := BitVec 32

/-- The payload `Data[8]` as one vector, `Data[i] = data[8i+7 : 8i]` (00_scope.md R14). -/
abbrev Payload := BitVec 64

end Sys2Proof
end

