-- ==== Sys2Proof/Syntax.lean ====
section
/-! DEFINITION. The frame, the message classes, the words presented at the ports and selects, and the instructions:
one constructor of `Instr` per row of spec/opcode_table.json. -/

namespace Sys2Proof

/-- The eight message-type classes (00_scope.md R12). -/
inductive MsgClass where
  | si | di | mv16 | mv32 | sc | dc | sp16 | sp32
deriving DecidableEq, Repr, Inhabited

/-- A frame value `{mt, id, len, data}` (00_scope.md R16). -/
structure Frame where
  mt   : BitVec 3
  id   : Identifier
  len  : BitVec 4
  data : Payload
deriving DecidableEq, Repr, Inhabited

/-- Where a word is presented: the three ports of the CORE (00_scope.md R7) and the two internal selects
(30_encoding.md R96). -/
inductive Port where
  | main | rx | sc | txq | codec
deriving DecidableEq, Repr

/-- A word as it is presented, by its format (30_encoding.md R80): "A decoder knows the width of a word from the
port it arrived at" (R99). The inputs that R96 gives the two selects stand beside the select. -/
inductive PortWord where
  /-- `APP48` at the MAIN port (R81). -/
  | app (w : BitVec 48)
  /-- `FRM79` at the RX port (R88, R89). -/
  | rx (w : BitVec 79)
  /-- `SC1` at the SC port (R91). -/
  | sc (w : BitVec 1)
  /-- `WID11` with the length and data of the frame that carries it: a frame at the RX port named by its wire
  identifier (R83, R101, R102). DEDUCED (log 8). -/
  | wid (w : BitVec 11) (len : BitVec 4) (data : Payload)
  /-- `TXQ2` with the frame input of ENQ (R96). -/
  | txq (sel : BitVec 2) (f : BitVec 79)
  /-- `CODEC4` with the inputs of encode (value, ts) and of decode (len, data) (R96). -/
  | codec (sel : BitVec 4) (value ts : Word) (len : BitVec 4) (data : Payload)
deriving DecidableEq, Repr

/-- The operations of the CORE, one constructor per row of spec/opcode_table.json.
Bits of a word that an operation ignores (30_encoding.md R97) are no argument. -/
inductive Instr where
  /-- NOP (45_status.md R251). -/
  | nop
  /-- WR_SI idx, state (42_write.md R181). -/
  | wrSi (idx : Index) (state : Byte)
  /-- WR_DI idx, state (42_write.md R182). -/
  | wrDi (idx : Index) (state : Byte)
  /-- WR_MV16 idx, value (42_write.md R183). -/
  | wrMv16 (idx : Index) (value : Half)
  /-- WR_MV32 idx, value (42_write.md R184). -/
  | wrMv32 (idx : Index) (value : Word)
  /-- REFRESH (44_refresh_tx.md R230). -/
  | refresh
  /-- RD_STAT (45_status.md R252). -/
  | rdStat
  /-- RD_CNT sel (45_status.md R253). -/
  | rdCnt (sel : Index)
  /-- RX w (43_rx_dispatch.md R201): the word's fields as presented, `len` not yet clamped. -/
  | rx (w : Frame)
  /-- SENDCOMPLETE (44_refresh_tx.md R236). -/
  | sendComplete
  /-- ENQ f (40_txq.md R121). -/
  | enq (f : Frame)
  /-- PEEK (40_txq.md R122). -/
  | peek
  /-- COMMIT (40_txq.md R123). -/
  | commit
  /-- ENC.SI (41_codec.md R144). -/
  | encSi (value ts : Word)
  /-- ENC.DI (41_codec.md R145). -/
  | encDi (value ts : Word)
  /-- ENC.MV16 (41_codec.md R146). -/
  | encMv16 (value ts : Word)
  /-- ENC.MV32 (41_codec.md R147). -/
  | encMv32 (value ts : Word)
  /-- ENC.SC (41_codec.md R148). -/
  | encSc (value ts : Word)
  /-- ENC.DC (41_codec.md R149). -/
  | encDc (value ts : Word)
  /-- ENC.SP16 (41_codec.md R150). -/
  | encSp16 (value ts : Word)
  /-- ENC.SP32 (41_codec.md R151). -/
  | encSp32 (value ts : Word)
  /-- DEC.SI (41_codec.md R152). -/
  | decSi (len : BitVec 4) (data : Payload)
  /-- DEC.DI (41_codec.md R153). -/
  | decDi (len : BitVec 4) (data : Payload)
  /-- DEC.MV16 (41_codec.md R154). -/
  | decMv16 (len : BitVec 4) (data : Payload)
  /-- DEC.MV32 (41_codec.md R155). -/
  | decMv32 (len : BitVec 4) (data : Payload)
  /-- DEC.SC (41_codec.md R156). -/
  | decSc (len : BitVec 4) (data : Payload)
  /-- DEC.DC (41_codec.md R157). -/
  | decDc (len : BitVec 4) (data : Payload)
  /-- DEC.SP16 (41_codec.md R158). -/
  | decSp16 (len : BitVec 4) (data : Payload)
  /-- DEC.SP32 (41_codec.md R159). -/
  | decSp32 (len : BitVec 4) (data : Payload)
  /-- FRAME.SI: a frame of class SI arrives (30_encoding.md R84, R86, R101; log 8). -/
  | frameSi (id : Identifier) (len : BitVec 4) (data : Payload)
  /-- FRAME.DI: a frame of class DI arrives. -/
  | frameDi (id : Identifier) (len : BitVec 4) (data : Payload)
  /-- FRAME.MV16: a frame of class MV16 arrives. -/
  | frameMv16 (id : Identifier) (len : BitVec 4) (data : Payload)
  /-- FRAME.MV32: a frame of class MV32 arrives. -/
  | frameMv32 (id : Identifier) (len : BitVec 4) (data : Payload)
  /-- FRAME.SC: a frame of class SC arrives. -/
  | frameSc (id : Identifier) (len : BitVec 4) (data : Payload)
  /-- FRAME.DC: a frame of class DC arrives. -/
  | frameDc (id : Identifier) (len : BitVec 4) (data : Payload)
  /-- FRAME.SP16: a frame of class SP16 arrives. -/
  | frameSp16 (id : Identifier) (len : BitVec 4) (data : Payload)
  /-- FRAME.SP32: a frame of class SP32 arrives. -/
  | frameSp32 (id : Identifier) (len : BitVec 4) (data : Payload)
deriving DecidableEq, Repr

end Sys2Proof
end

