-- ==== Sys2Proof/Config.lean ====
section
/-! DEFINITION. What an installation fixes (the tables of registered objects) and the free values the spec leaves open. -/

namespace Sys2Proof

/-- The configuration of 00_scope.md R9: for each class `c` the list `ID_c[0], …, ID_c[N_c − 1]`,
so that `N_c` is the list's length. No operation writes it (R11). -/
structure Config where
  idSi   : List Identifier
  idDi   : List Identifier
  idMv16 : List Identifier
  idMv32 : List Identifier
  idSc   : List Identifier
  idDc   : List Identifier
  idSp16 : List Identifier
  idSp32 : List Identifier
deriving DecidableEq, Repr, Inhabited

/-- CFG-A, the reference configuration of 95_test_vectors.md section 1.
DESIGN CHOICE (log 4): the configuration of `State.reset`, unsafe; every statement quantifies over configurations. -/
def Config.cfgA : Config where
  idSi   := [0x10, 0x11]
  idDi   := [0x10]
  idMv16 := [0x20]
  idMv32 := [0x21]
  idSc   := [0x10, 0x30]
  idDc   := [0x31]
  idSp16 := [0x20]
  idSp32 := [0x40]

/-- FREE VALUE (U13 of 93_implementation_defined.md, log 6, safe): the frame output of PEEK when it answers `Empty`. -/
opaque Config.freeFrame : Nat → Frame

/-- FREE VALUE (U13 of 93_implementation_defined.md, log 6, safe): the value output of DEC.c when it answers `MalformedFrame`. -/
opaque Config.freeValue : Nat → Word

/-- FREE VALUE (U13 of 93_implementation_defined.md, log 6, safe): the timestamp output of DEC.c when it answers `MalformedFrame`. -/
opaque Config.freeStamp : Nat → Word

end Sys2Proof
end

