-- ==== Sys2Proof/WellFormed.lean ====
section
/-! DEFINITION. The checks on an instruction's operands and on a configuration. -/

namespace Sys2Proof

/-- The legal `DataLength`, 0 to 8 (00_scope.md R9). -/
def legalLen (len : BitVec 4) : Bool := decide (len.toNat ≤ 8)

/-- Operand ranges the types do not already give: the `len` input of DEC.c is "u4 (0 to 8)" (41_codec.md R142).
Every FRM79 word is legal at the RX port (30_encoding.md R89), TXQ stores any 79 bits (10_state.md R22), and an
index outside its table is an operation with a defined answer (42_write.md R180, 45_status.md R253). -/
def Instr.wellFormed : Instr → Bool
  | .nop | .wrSi _ _ | .wrDi _ _ | .wrMv16 _ _ | .wrMv32 _ _ | .refresh | .rdStat | .rdCnt _ => true
  | .rx _ | .sendComplete | .enq _ | .peek | .commit => true
  | .encSi _ _ | .encDi _ _ | .encMv16 _ _ | .encMv32 _ _ => true
  | .encSc _ _ | .encDc _ _ | .encSp16 _ _ | .encSp32 _ _ => true
  | .decSi len _ | .decDi len _ | .decMv16 len _ | .decMv32 len _ => legalLen len
  | .decSc len _ | .decDc len _ | .decSp16 len _ | .decSp32 len _ => legalLen len
  | .frameSi _ _ _ | .frameDi _ _ _ | .frameMv16 _ _ _ | .frameMv32 _ _ _ => true
  | .frameSc _ _ _ | .frameDc _ _ _ | .frameSp16 _ _ _ | .frameSp32 _ _ _ => true

/-- A frame whose `DataLength` is legal: what every stored frame is when only the CORE's ports are used
(30_encoding.md R87, 92_eei_decisions.md D18). -/
def Frame.wellFormed (f : Frame) : Bool := legalLen f.len

/-- One class table: at most 256 objects (00_scope.md R9), no Identifier twice (R10). -/
def tableWellFormed (ids : List Identifier) : Bool := decide (ids.length ≤ 256) && decide ids.Nodup

/-- The well-formed configurations of 00_scope.md R9, R10. -/
def Config.wellFormed (c : Config) : Bool :=
  tableWellFormed c.idSi && tableWellFormed c.idDi && tableWellFormed c.idMv16 && tableWellFormed c.idMv32 &&
  tableWellFormed c.idSc && tableWellFormed c.idDc && tableWellFormed c.idSp16 && tableWellFormed c.idSp32

end Sys2Proof
end

