-- ==== Sys2Proof/Decode.lean ====
section
/-! DEFINITION. Class codes, the frame word, decoding of the words presented at the ports and selects, and the
encoder written from the same formats (30_encoding.md). -/

namespace Sys2Proof

/-- The `MessageType` code of a class (30_encoding.md R84). -/
def MsgClass.code : MsgClass → BitVec 3
  | .si => 0 | .di => 1 | .mv16 => 2 | .mv32 => 3 | .sc => 4 | .dc => 5 | .sp16 => 6 | .sp32 => 7

/-- The class of a `MessageType` code: all eight used, none reserved (30_encoding.md R84). -/
def MsgClass.ofCode (mt : BitVec 3) : MsgClass :=
  match mt.toNat with
  | 0 => .si | 1 => .di | 2 => .mv16 | 3 => .mv32 | 4 => .sc | 5 => .dc | 6 => .sp16 | _ => .sp32

/-- The wire identifier `WID = mt ‖ id` (30_encoding.md R83). -/
def Frame.wid (f : Frame) : BitVec 11 := f.mt ++ f.id

/-- The frame word `FRM79` (30_encoding.md R88): `mt` 78:76, `id` 75:68, `len` 67:64, `data` 63:0. -/
def Frame.word (f : Frame) : BitVec 79 := f.mt ++ f.id ++ f.len ++ f.data

/-- The fields of a frame word (30_encoding.md R88). -/
def Frame.ofWord (w : BitVec 79) : Frame where
  mt   := w.extractLsb' 76 3
  id   := w.extractLsb' 68 8
  len  := w.extractLsb' 64 4
  data := w.extractLsb' 0 64

/-- Why a presented word selects no operation. -/
inductive Reject where
  /-- `APP48` with `op` 8 to 15 or `z ≠ 0` (45_status.md R254). -/
  | badOp
  /-- `SC1` value 0: the idle port (30_encoding.md R91). -/
  | idleSc
  /-- `TXQ2` value 0: none (30_encoding.md R96). -/
  | idleTxq
deriving DecidableEq, Repr

/-- The `APP48` command word (30_encoding.md R81, R82, R97). -/
def decodeApp (w : BitVec 48) : Except Reject Instr :=
  let op : BitVec 4 := w.extractLsb' 44 4
  let z : BitVec 4 := w.extractLsb' 40 4
  let idx : Index := w.extractLsb' 32 8
  if z ≠ 0 then .error .badOp
  else match op.toNat with
    | 0 => .ok .nop
    | 1 => .ok (.wrSi idx (w.extractLsb' 0 8))
    | 2 => .ok (.wrDi idx (w.extractLsb' 0 8))
    | 3 => .ok (.wrMv16 idx (w.extractLsb' 0 16))
    | 4 => .ok (.wrMv32 idx (w.extractLsb' 0 32))
    | 5 => .ok .refresh
    | 6 => .ok .rdStat
    | 7 => .ok (.rdCnt idx)
    | _ => .error .badOp

/-- The `SC1` word (30_encoding.md R91). -/
def decodeSc (w : BitVec 1) : Except Reject Instr :=
  if w = 1 then .ok .sendComplete else .error .idleSc

/-- A frame named by its wire identifier, by class (30_encoding.md R83, R84, R102). -/
def decodeWid (w : BitVec 11) (len : BitVec 4) (data : Payload) : Instr :=
  let id : Identifier := w.extractLsb' 0 8
  match MsgClass.ofCode (w.extractLsb' 8 3) with
  | .si   => .frameSi id len data
  | .di   => .frameDi id len data
  | .mv16 => .frameMv16 id len data
  | .mv32 => .frameMv32 id len data
  | .sc   => .frameSc id len data
  | .dc   => .frameDc id len data
  | .sp16 => .frameSp16 id len data
  | .sp32 => .frameSp32 id len data

/-- The `TXQ2` select (30_encoding.md R96). -/
def decodeTxq (sel : BitVec 2) (f : BitVec 79) : Except Reject Instr :=
  match sel.toNat with
  | 1 => .ok (.enq (Frame.ofWord f))
  | 2 => .ok .peek
  | 3 => .ok .commit
  | _ => .error .idleTxq

/-- The encode half of `CODEC4`, by class (30_encoding.md R96). -/
def encodeInstr (c : MsgClass) (value ts : Word) : Instr :=
  match c with
  | .si   => .encSi value ts
  | .di   => .encDi value ts
  | .mv16 => .encMv16 value ts
  | .mv32 => .encMv32 value ts
  | .sc   => .encSc value ts
  | .dc   => .encDc value ts
  | .sp16 => .encSp16 value ts
  | .sp32 => .encSp32 value ts

/-- The decode half of `CODEC4`, by class (30_encoding.md R96). -/
def decodeInstr (c : MsgClass) (len : BitVec 4) (data : Payload) : Instr :=
  match c with
  | .si   => .decSi len data
  | .di   => .decDi len data
  | .mv16 => .decMv16 len data
  | .mv32 => .decMv32 len data
  | .sc   => .decSc len data
  | .dc   => .decDc len data
  | .sp16 => .decSp16 len data
  | .sp32 => .decSp32 len data

/-- The `CODEC4` select: bit 3 the direction, 0 encode and 1 decode; bits 2:0 the class (30_encoding.md R96). -/
def decodeCodec (sel : BitVec 4) (value ts : Word) (len : BitVec 4) (data : Payload) : Instr :=
  let c := MsgClass.ofCode (sel.extractLsb' 0 3)
  if sel.getLsbD 3 then decodeInstr c len data else encodeInstr c value ts

/-- The operation a presented word selects, or why it selects none. -/
def decode : PortWord → Except Reject Instr
  | .app w                     => decodeApp w
  | .rx w                      => .ok (.rx (Frame.ofWord w))
  | .sc w                      => decodeSc w
  | .wid w len data            => .ok (decodeWid w len data)
  | .txq sel f                 => decodeTxq sel f
  | .codec sel value ts len data => .ok (decodeCodec sel value ts len data)

/-- Where a word is presented (00_scope.md R7, 30_encoding.md R96). -/
def PortWord.port : PortWord → Port
  | .app _             => .main
  | .rx _              => .rx
  | .wid _ _ _         => .rx
  | .sc _              => .sc
  | .txq _ _           => .txq
  | .codec _ _ _ _ _   => .codec

/-- The word is presented at a port of the CORE, not at an internal select: "Neither select is reachable from a
port of the CORE" (30_encoding.md R96). -/
def PortWord.atPort (p : PortWord) : Bool :=
  match p.port with
  | .main => true
  | .rx => true
  | .sc => true
  | .txq => false
  | .codec => false

/-- An `APP48` word from its fields (30_encoding.md R81), `z = 0`. -/
def appWord (op : BitVec 4) (idx : Index) (operand : Word) : PortWord :=
  .app (op ++ (0 : BitVec 4) ++ idx ++ operand)

/-- A `WID11` word from its fields (30_encoding.md R83), with the frame's length and data. -/
def widWord (c : MsgClass) (id : Identifier) (len : BitVec 4) (data : Payload) : PortWord :=
  .wid (c.code ++ id) len data

/-- A `CODEC4` encode select `0 ‖ code(c)` with its inputs (30_encoding.md R96). -/
def encWord (c : MsgClass) (value ts : Word) : PortWord :=
  .codec ((0 : BitVec 1) ++ c.code) value ts 0 0

/-- A `CODEC4` decode select `1 ‖ code(c)` with its inputs (30_encoding.md R96). -/
def decWord (c : MsgClass) (len : BitVec 4) (data : Payload) : PortWord :=
  .codec ((1 : BitVec 1) ++ c.code) 0 0 len data

/-- The word of an instruction, every ignored bit 0, from the formats of 30_encoding.md R81 to R96. -/
def encode : Instr → PortWord
  | .nop => appWord 0 0 0
  | .wrSi idx state => appWord 1 idx (state.setWidth 32)
  | .wrDi idx state => appWord 2 idx (state.setWidth 32)
  | .wrMv16 idx value => appWord 3 idx (value.setWidth 32)
  | .wrMv32 idx value => appWord 4 idx value
  | .refresh => appWord 5 0 0
  | .rdStat => appWord 6 0 0
  | .rdCnt sel => appWord 7 sel 0
  | .rx w => .rx w.word
  | .sendComplete => .sc 1
  | .enq f => .txq 1 f.word
  | .peek => .txq 2 0
  | .commit => .txq 3 0
  | .encSi value ts => encWord .si value ts
  | .encDi value ts => encWord .di value ts
  | .encMv16 value ts => encWord .mv16 value ts
  | .encMv32 value ts => encWord .mv32 value ts
  | .encSc value ts => encWord .sc value ts
  | .encDc value ts => encWord .dc value ts
  | .encSp16 value ts => encWord .sp16 value ts
  | .encSp32 value ts => encWord .sp32 value ts
  | .decSi len data => decWord .si len data
  | .decDi len data => decWord .di len data
  | .decMv16 len data => decWord .mv16 len data
  | .decMv32 len data => decWord .mv32 len data
  | .decSc len data => decWord .sc len data
  | .decDc len data => decWord .dc len data
  | .decSp16 len data => decWord .sp16 len data
  | .decSp32 len data => decWord .sp32 len data
  | .frameSi id len data => widWord .si id len data
  | .frameDi id len data => widWord .di id len data
  | .frameMv16 id len data => widWord .mv16 id len data
  | .frameMv32 id len data => widWord .mv32 id len data
  | .frameSc id len data => widWord .sc id len data
  | .frameDc id len data => widWord .dc id len data
  | .frameSp16 id len data => widWord .sp16 id len data
  | .frameSp32 id len data => widWord .sp32 id len data

/-- The bits of an `APP48` word that an operation uses, from the `encoding` patterns of spec/opcode_table.json
(`x` is an ignored bit); for any other format, none. -/
def Instr.usedAppBits : Instr → BitVec 48
  | .nop | .refresh | .rdStat => 0xFF0000000000
  | .wrSi _ _ | .wrDi _ _ => 0xFFFF000000FF
  | .wrMv16 _ _ => 0xFFFF0000FFFF
  | .wrMv32 _ _ => 0xFFFFFFFFFFFF
  | .rdCnt _ => 0xFFFF00000000
  | .rx _ | .sendComplete | .enq _ | .peek | .commit => 0
  | .encSi _ _ | .encDi _ _ | .encMv16 _ _ | .encMv32 _ _ => 0
  | .encSc _ _ | .encDc _ _ | .encSp16 _ _ | .encSp32 _ _ => 0
  | .decSi _ _ | .decDi _ _ | .decMv16 _ _ | .decMv32 _ _ => 0
  | .decSc _ _ | .decDc _ _ | .decSp16 _ _ | .decSp32 _ _ => 0
  | .frameSi _ _ _ | .frameDi _ _ _ | .frameMv16 _ _ _ | .frameMv32 _ _ _ => 0
  | .frameSc _ _ _ | .frameDc _ _ _ | .frameSp16 _ _ _ | .frameSp32 _ _ _ => 0

/-- The port word of an opcode-table word: the format is told from the number of bits (1 `SC1`, 2 `TXQ2`, 4 `CODEC4`,
11 `WID11`, 48 `APP48`, 79 `FRM79`; 16 and 80 are 11 and 79 in whole bytes), every input beside the select 0.
`SC1`, `TXQ2` and `CODEC4` all take one whole byte, and the spec tells them apart by port only (30_encoding.md R99):
a byte is taken in the narrowest format in which it selects something. DESIGN CHOICE (log 9). -/
def PortWord.ofTable (nbits w : Nat) : Option PortWord :=
  if nbits = 48 then (if w < 2 ^ 48 then some (.app (BitVec.ofNat 48 w)) else none)
  else if nbits = 79 ∨ nbits = 80 then (if w < 2 ^ 79 then some (.rx (BitVec.ofNat 79 w)) else none)
  else if nbits = 11 ∨ nbits = 16 then (if w < 2 ^ 11 then some (.wid (BitVec.ofNat 11 w) 0 0) else none)
  else if nbits = 1 then (if w < 2 then some (.sc (BitVec.ofNat 1 w)) else none)
  else if nbits = 2 then (if w < 4 then some (.txq (BitVec.ofNat 2 w) 0) else none)
  else if nbits = 4 then (if w < 16 then some (.codec (BitVec.ofNat 4 w) 0 0 0 0) else none)
  else if nbits = 8 then
    if w = 1 then some (.sc 1)
    else if w = 2 ∨ w = 3 then some (.txq (BitVec.ofNat 2 w) 0)
    else if w < 16 then some (.codec (BitVec.ofNat 4 w) 0 0 0 0)
    else none
  else none

/-- The instruction the decoder reads from an opcode-table word of `nbits` bits. -/
def decodeTableWord (nbits w : Nat) : Option Instr :=
  match PortWord.ofTable nbits w with
  | none => none
  | some p =>
    match decode p with
    | .ok i => some i
    | .error _ => none

end Sys2Proof
end

