-- ==== Sys2Proof/Machine/State.lean ====
section
/-! DEFINITION. The state of the CORE as plain data (10_state.md), the outputs of an operation, the operations still
to be performed, the reasons a step can stop, and the state after reset (R43). -/

namespace Sys2Proof.Machine

/-- The causes of 60_exceptions.md R260. -/
inductive Cause where
  | ok | bufferFull | malformedFrame | unmatchedFrame | inboundOverflow | transmitRejected | badIndex | badOp
deriving DecidableEq, Repr

/-- The Outgoing Ring Buffer TXQ (10_state.md R22 to R25). `HEAD` and `TAIL` hold the legal values 0 to 9 and
`COUNT` the legal values 0 to 10 of their four bits (log 10). -/
structure Txq where
  slots : Vector Frame 10
  head  : Fin 10
  tail  : Fin 10
  count : Fin 11
deriving DecidableEq, Repr

/-- An Indication cell `{STATE, TS}` (10_state.md R33). -/
structure IndCell where
  state : Byte
  ts    : Word
deriving DecidableEq, Repr

/-- A MeasuredValue16 cell `{VALUE, TS}` (10_state.md R34). -/
structure Mv16Cell where
  value : Half
  ts    : Word
deriving DecidableEq, Repr

/-- A MeasuredValue32 cell `{VALUE, TS}` (10_state.md R34). -/
structure Mv32Cell where
  value : Word
  ts    : Word
deriving DecidableEq, Repr

/-- The object cells of REG, one list a class, index `i < N_c` (10_state.md R33 to R36).
`sc` and `dc` hold `.STATE`, `sp16` and `sp32` hold `.VALUE`; inbound objects have no Timestamp. -/
structure Cells where
  si   : List IndCell
  di   : List IndCell
  mv16 : List Mv16Cell
  mv32 : List Mv32Cell
  sc   : List Byte
  dc   : List Byte
  sp16 : List Half
  sp32 : List Word
deriving DecidableEq, Repr

/-- The three event counters, modulo 2^32 (10_state.md R38). -/
structure Counters where
  unmatched : Word
  inovf     : Word
  malformed : Word
deriving DecidableEq, Repr

/-- `frameKind ∈ {DATA, REMOTE}` of the TX port (30_encoding.md R90). -/
inductive FrameKind where
  | data | remote
deriving DecidableEq, Repr

/-- `idKind ∈ {STANDARD, EXTENDED}` of the TX port (30_encoding.md R90). -/
inductive IdKind where
  | standard | extended
deriving DecidableEq, Repr

/-- The MAIN-port response `RSP35` (30_encoding.md R93). -/
structure Response where
  res   : Cause
  rdata : Word
deriving DecidableEq, Repr

/-- A presentation at the TX port (30_encoding.md R90). -/
structure TxPresentation where
  wid       : BitVec 11
  frameKind : FrameKind
  idKind    : IdKind
  len       : BitVec 4
  data      : Payload
deriving DecidableEq, Repr

/-- A callback event `CB43` (30_encoding.md R92). -/
structure Callback where
  cls   : BitVec 3
  idx   : Index
  value : Word
deriving DecidableEq, Repr

/-- One output of an operation (10_state.md R39): the three of the CORE's ports, and the answers of the two internal
selects (30_encoding.md R96). -/
inductive Output where
  /-- `result(code, rdata)` at the MAIN port. -/
  | rsp (r : Response)
  /-- `emit TX(f)`. -/
  | tx (p : TxPresentation)
  /-- `emit CB(c, i, v)`. -/
  | cb (c : Callback)
  /-- The status bit `ok` of ENQ. -/
  | txqOk (ok : Bool)
  /-- The status bit `valid` and the frame output of PEEK. -/
  | txqFrame (valid : Bool) (f : Frame)
  /-- The outputs `(len, data)` of ENC.c. -/
  | encoded (len : BitVec 4) (data : Payload)
  /-- The outputs `(ok, value, ts)` of DEC.c. -/
  | decoded (ok : Bool) (value ts : Word)
deriving DecidableEq, Repr

/-- One event of the total order of 20_memory.md R72: a word presented at a port, with the levels of the `TIME` and
`tx_accept` inputs at that moment (10_state.md R39, R40), or the reset input between two operations
(70_reset_and_hazards.md R300). DESIGN CHOICE (log 1, log 2, log 14). -/
inductive Stimulus where
  | op (word : PortWord) (time : Word) (accept : Bool)
  | reset
deriving DecidableEq, Repr

/-- The state: the registers of 10_state.md R20, the configuration (00_scope.md R9), and the ports. -/
structure State where
  /-- TXQ (10_state.md R22 to R25). -/
  txq      : Txq
  /-- `INFLIGHT` (10_state.md R30). -/
  inflight : Bool
  /-- `RXS_OCC` (10_state.md R31). -/
  rxsOcc   : Bool
  /-- `RXS_FRAME` (10_state.md R32). -/
  rxsFrame : Frame
  /-- The object cells (10_state.md R33 to R36). -/
  cells    : Cells
  /-- The counters (10_state.md R38). -/
  cnt      : Counters
  /-- The configuration, which no operation writes (00_scope.md R11). -/
  cfg      : Config
  /-- The outputs of the operation just performed, in the order they were emitted (log 3). -/
  out      : List Output
  /-- The level of the `TIME` input for the operation being performed (10_state.md R40, log 2). -/
  time     : Word
  /-- The level of the `tx_accept` input for the operation being performed (30_encoding.md R90, log 2). -/
  txAccept : Bool
  /-- The events still to come, in the total order of 20_memory.md R72 (log 1). -/
  pending  : List Stimulus
  /-- The MODEL's own: numbers the free values handed out (log 6). -/
  fresh    : Nat
deriving DecidableEq, Repr

/-- Why the machine would stop: no constructor, since "Nothing in this core is fatal" (60_exceptions.md, R272, R273).
Nobody raises one; safe, because the spec gives every operation an outcome (log 21). -/
inductive Fault
deriving DecidableEq, Repr

/-- Why an instruction has no meaning here. -/
inductive Refusal where
  /-- Raised by `exec`'s arm of an instruction that has no meaning yet (no arm does); safe. -/
  | notModelled (mnemonic : String)
deriving DecidableEq, Repr

/-- The value the model names for a frame register the spec leaves unspecified after reset.
DESIGN CHOICE (log 5), unsafe. -/
def blankFrame : Frame := { mt := 0, id := 0, len := 0, data := 0 }

/-- TXQ after reset: empty (10_state.md R43). -/
def Txq.reset : Txq where
  slots := Vector.replicate 10 blankFrame
  head  := 0
  tail  := 0
  count := 0

/-- The object cells after reset: every `.STATE`, `.VALUE` and `.TS` cell 0, `N_c` of each class (10_state.md R43). -/
def Cells.reset (c : Config) : Cells where
  si   := c.idSi.map fun _ => { state := 0, ts := 0 }
  di   := c.idDi.map fun _ => { state := 0, ts := 0 }
  mv16 := c.idMv16.map fun _ => { value := 0, ts := 0 }
  mv32 := c.idMv32.map fun _ => { value := 0, ts := 0 }
  sc   := c.idSc.map fun _ => 0
  dc   := c.idDc.map fun _ => 0
  sp16 := c.idSp16.map fun _ => 0
  sp32 := c.idSp32.map fun _ => 0

/-- The counters after reset (10_state.md R43). -/
def Counters.reset : Counters := { unmatched := 0, inovf := 0, malformed := 0 }

/-- The state right after reset under a configuration (10_state.md R43, 70_reset_and_hazards.md R300), no operation
presented yet. -/
def State.resetWith (c : Config) : State where
  txq      := Txq.reset
  inflight := false
  rxsOcc   := false
  rxsFrame := blankFrame
  cells    := Cells.reset c
  cnt      := Counters.reset
  cfg      := c
  out      := []
  time     := 0
  txAccept := false
  pending  := []
  fresh    := 0

/-- The machine right after reset. Its configuration is CFG-A of 95_test_vectors.md section 1.
DESIGN CHOICE (log 4): the tables are OPEN (00_scope.md R9), unsafe for what rests on these. -/
def State.reset : State := State.resetWith Config.cfgA

end Sys2Proof.Machine
end

