-- ==== Sys2Proof/Machine/Operands.lean ====
section
/-! DEFINITION. Payload fields, operand assembly and the output words: MemRead and MemWrite (00_scope.md R15),
extension, the length clamp, RSP35 and CB43. -/

namespace Sys2Proof.Machine

/-- `MemRead(a, n) = data[8(a+n)−1 : 8a]` (00_scope.md R15): little-endian, so a field is a bit slice
(20_memory.md R64, R66). -/
def memRead (data : Payload) (a n : Nat) : BitVec (8 * n) := data.extractLsb' (8 * a) (8 * n)

/-- `MemWrite(a, n, v)`: `data[8(a+n)−1 : 8a] <- v` (00_scope.md R15). -/
def memWrite (data : Payload) (a n : Nat) (v : BitVec (8 * n)) : Payload :=
  (data &&& ~~~ ((BitVec.allOnes (8 * n)).setWidth 64 <<< (8 * a))) ||| (v.setWidth 64 <<< (8 * a))

/-- Byte `Data[i]` of a payload (00_scope.md R14). -/
def dataByte (data : Payload) (i : Nat) : Byte := data.extractLsb' (8 * i) 8

/-- The State byte zero-extended to the 32-bit value (41_codec.md R162, 30_encoding.md R92). -/
def extState (s : Byte) : Word := s.setWidth 32

/-- A 16-bit Value sign-extended to the 32-bit value (41_codec.md R162, 30_encoding.md R92). -/
def extHalf (v : Half) : Word := v.signExtend 32

/-- The `len` clamp at the RX port, `min(len, 8)` (30_encoding.md R89). -/
def clampLen (len : BitVec 4) : BitVec 4 := if 8 < len.toNat then 8 else len

/-- The code of a cause (60_exceptions.md R260, 30_encoding.md R93). -/
def Cause.code : Cause → BitVec 3
  | .ok => 0
  | .bufferFull => 1
  | .malformedFrame => 2
  | .unmatchedFrame => 3
  | .inboundOverflow => 4
  | .transmitRejected => 5
  | .badIndex => 6
  | .badOp => 7

/-- `tx_frameKind`: 0 DATA, 1 REMOTE (30_encoding.md R90). -/
def FrameKind.code : FrameKind → BitVec 1
  | .data => 0
  | .remote => 1

/-- `tx_idKind`: 0 STANDARD, 1 EXTENDED (30_encoding.md R90). -/
def IdKind.code : IdKind → BitVec 1
  | .standard => 0
  | .extended => 1

/-- `RSP35`: `res` 34:32, `rdata` 31:0 (30_encoding.md R93). -/
def Response.word (r : Response) : BitVec 35 := r.res.code ++ r.rdata

/-- `CB43`: `cls` 42:40, `idx` 39:32, `value` 31:0 (30_encoding.md R92). -/
def Callback.word (c : Callback) : BitVec 43 := c.cls ++ c.idx ++ c.value

/-- The presentation of a frame at the TX port: `frameKind = DATA`, `idKind = STANDARD` (30_encoding.md R85, R90). -/
def TxPresentation.ofFrame (f : Frame) : TxPresentation where
  wid       := f.wid
  frameKind := .data
  idKind    := .standard
  len       := f.len
  data      := f.data

/-- A frame at the RX port as it is stored: `len` clamped, everything else as presented (43_rx_dispatch.md R201). -/
def Frame.stored (f : Frame) : Frame := { f with len := clampLen f.len }

end Sys2Proof.Machine
end

