-- ==== Sys2Proof/Machine/Flags.lean ====
section
/-! DEFINITION. The derived flags EMPTY and FULL (10_state.md R27), the status word of RD_STAT (30_encoding.md R94)
and the counters' increment (10_state.md R38). -/

namespace Sys2Proof.Machine

/-- `EMPTY = (COUNT = 0)` (10_state.md R27). -/
def Txq.empty (q : Txq) : Bool := decide (q.count.val = 0)

/-- `FULL = (COUNT = 10)` (10_state.md R27). -/
def Txq.full (q : Txq) : Bool := decide (q.count.val = 10)

/-- The status word (30_encoding.md R94, 45_status.md R252): bits 31:16 zero, TAIL, HEAD, RXS_OCC, INFLIGHT, FULL,
EMPTY, COUNT. -/
def State.statWord (s : State) : Word :=
  (0 : BitVec 16) ++ BitVec.ofNat 4 s.txq.tail.val ++ BitVec.ofNat 4 s.txq.head.val ++
    BitVec.ofBool s.rxsOcc ++ BitVec.ofBool s.inflight ++ BitVec.ofBool s.txq.full ++ BitVec.ofBool s.txq.empty ++
    BitVec.ofNat 4 s.txq.count.val

/-- One more event, modulo 2^32 (10_state.md R38). -/
def bump (c : Word) : Word := c + 1

end Sys2Proof.Machine
end

