-- ==== Sys2Proof/Machine/Ops.lean ====
section
/-! DEFINITION. The named operations that the meanings share: the start of an operation and its outputs, raising a
cause, the ring buffer, the registry and its cells, the reset input. -/

namespace Sys2Proof.Machine

/-! ### Starting an operation and its outputs -/

/-- An operation starts: the ports are idle until it emits something (10_state.md R43, 30_encoding.md R90). -/
def State.start (s : State) : State := { s with out := [] }

/-- `emit` (00_scope.md R15): one more output, after those already emitted. -/
def State.emit (o : Output) (s : State) : State := { s with out := s.out ++ [o] }

/-- `result(code, rdata)` at the MAIN port (00_scope.md R15, 30_encoding.md R93). -/
def State.result (e : Cause) (rdata : Word) (s : State) : State := s.emit (.rsp { res := e, rdata := rdata })

/-! ### Named updates -/

/-- The ring buffer becomes `q` (40_txq.md). -/
def State.setTxq (q : Txq) (s : State) : State := { s with txq := q }

/-- `INFLIGHT <- b` (10_state.md R30). -/
def State.setInflight (b : Bool) (s : State) : State := { s with inflight := b }

/-- `RXS_FRAME <- f; RXS_OCC <- 1` (43_rx_dispatch.md R201). -/
def State.fillSlot (f : Frame) (s : State) : State := { s with rxsOcc := true, rxsFrame := f }

/-- `RXS_OCC <- 0`; the freed slot keeps its bits (10_state.md R44). -/
def State.freeSlot (s : State) : State := { s with rxsOcc := false }

/-- The counters become `c` (10_state.md R38). -/
def State.setCnt (c : Counters) (s : State) : State := { s with cnt := c }

/-- A free value has been handed out: the next one has another number (log 6). -/
def State.useFree (s : State) : State := { s with fresh := s.fresh + 1 }

/-! ### Raising a cause -/

/-- The effect column of 60_exceptions.md R260: what raising a cause does. The CORE has no trap entry and no return
(R272, R273), so this is the whole of it: a result code for the causes MAIN sees, a counter for the silent discards,
nothing for a rejected transmission (R265). -/
def State.raise (e : Cause) (s : State) : State :=
  match e with
  | .ok => s.result .ok 0
  | .bufferFull => s.result .bufferFull 0
  | .badIndex => s.result .badIndex 0
  | .badOp => s.result .badOp 0
  | .malformedFrame => s.setCnt { s.cnt with malformed := bump s.cnt.malformed }
  | .unmatchedFrame => s.setCnt { s.cnt with unmatched := bump s.cnt.unmatched }
  | .inboundOverflow => s.setCnt { s.cnt with inovf := bump s.cnt.inovf }
  | .transmitRejected => s

/-! ### The ring buffer -/

/-- The successor of a slot index, `(i + 1) mod 10` (20_memory.md R61). -/
def nextSlot (i : Fin 10) : Fin 10 := ⟨(i.val + 1) % 10, Nat.mod_lt _ (by decide)⟩

/-- `ENQ f` (40_txq.md R121): the buffer and the status `ok`. -/
def Txq.enq (f : Frame) (q : Txq) : Txq × Bool :=
  if h : q.count.val = 10 then (q, false)
  else
    ({ slots := q.slots.set q.tail.val f q.tail.isLt
       head  := q.head
       tail  := nextSlot q.tail
       count := ⟨q.count.val + 1, by have := q.count.isLt; omega⟩ }, true)

/-- `PEEK` (40_txq.md R122): the head frame, or `none` for `Empty`. -/
def Txq.peek (q : Txq) : Option Frame :=
  if q.count.val = 0 then none else some (q.slots[q.head.val]'q.head.isLt)

/-- `COMMIT` (40_txq.md R123). -/
def Txq.commit (q : Txq) : Txq :=
  if q.count.val = 0 then q
  else { q with
    head  := nextSlot q.head
    count := ⟨q.count.val - 1, by have := q.count.isLt; omega⟩ }

/-- Slot `(HEAD + k) mod 10` of the ring (10_state.md R28). -/
def Txq.slotAt (q : Txq) (k : Nat) : Frame := q.slots[(q.head.val + k) % 10]'(Nat.mod_lt _ (by decide))

/-- The contents `Q` of the buffer, oldest first (10_state.md R28). -/
def Txq.queue (q : Txq) : List Frame := (List.range q.count.val).map q.slotAt

/-! ### The registry -/

/-- The Identifier table of a class (00_scope.md R9). -/
def idTable (c : Config) : MsgClass → List Identifier
  | .si => c.idSi
  | .di => c.idDi
  | .mv16 => c.idMv16
  | .mv32 => c.idMv32
  | .sc => c.idSc
  | .dc => c.idDc
  | .sp16 => c.idSp16
  | .sp32 => c.idSp32

/-- The direction of a class: bit 2 of its code, 1 inbound (30_encoding.md R84). -/
def inbound (mt : BitVec 3) : Bool := mt.getLsbD 2

/-- The registry lookup (43_rx_dispatch.md R207, R208): the least `i` with `ID_c[i] = id`. -/
def lookup (c : Config) (k : MsgClass) (id : Identifier) : Option Nat := (idTable c k).findIdx? (fun x => x == id)

/-- `SI[i] <- {STATE, TS}` (42_write.md R181). -/
def State.setSi (i : Nat) (v : IndCell) (s : State) : State := { s with cells := { s.cells with si := s.cells.si.set i v } }

/-- `DI[i] <- {STATE, TS}` (42_write.md R182). -/
def State.setDi (i : Nat) (v : IndCell) (s : State) : State := { s with cells := { s.cells with di := s.cells.di.set i v } }

/-- `MV16[i] <- {VALUE, TS}` (42_write.md R183). -/
def State.setMv16 (i : Nat) (v : Mv16Cell) (s : State) : State :=
  { s with cells := { s.cells with mv16 := s.cells.mv16.set i v } }

/-- `MV32[i] <- {VALUE, TS}` (42_write.md R184). -/
def State.setMv32 (i : Nat) (v : Mv32Cell) (s : State) : State :=
  { s with cells := { s.cells with mv32 := s.cells.mv32.set i v } }

/-- `SC[i].STATE <- r` (43_rx_dispatch.md R211). -/
def State.setSc (i : Nat) (v : Byte) (s : State) : State := { s with cells := { s.cells with sc := s.cells.sc.set i v } }

/-- `DC[i].STATE <- r` (43_rx_dispatch.md R211). -/
def State.setDc (i : Nat) (v : Byte) (s : State) : State := { s with cells := { s.cells with dc := s.cells.dc.set i v } }

/-- `SP16[i].VALUE <- r` (43_rx_dispatch.md R211). -/
def State.setSp16 (i : Nat) (v : Half) (s : State) : State :=
  { s with cells := { s.cells with sp16 := s.cells.sp16.set i v } }

/-- `SP32[i].VALUE <- r` (43_rx_dispatch.md R211). -/
def State.setSp32 (i : Nat) (v : Word) (s : State) : State :=
  { s with cells := { s.cells with sp32 := s.cells.sp32.set i v } }

/-- `emit CB(code(c), i, value)` (43_rx_dispatch.md R212); an index above 255 exists in no well-formed configuration
(log 17). -/
def State.callback (c : MsgClass) (i : Nat) (value : Word) (s : State) : State :=
  s.emit (.cb { cls := c.code, idx := BitVec.ofNat 8 i, value := value })

/-! ### The reset input and the next event -/

/-- The reset input (70_reset_and_hazards.md R300): every register at its reset value and the ports idle, the
configuration kept; the events still to come and the input levels are the environment's (log 14). -/
def State.applyReset (s : State) : State :=
  { State.resetWith s.cfg with time := s.time, txAccept := s.txAccept, pending := s.pending, fresh := s.fresh }

/-- An event is taken: the input levels of its moment are there for it to sample (10_state.md R39, R40). -/
def State.take (time : Word) (accept : Bool) (rest : List Stimulus) (s : State) : State :=
  { s with time := time, txAccept := accept, pending := rest }

/-- What a word that selects no operation does: a reserved `APP48` word answers `BadOp` (45_status.md R254), an idle
`SC1` or `TXQ2` value selects nothing (30_encoding.md R98). -/
def State.reject (r : Reject) (s : State) : State :=
  match r with
  | .badOp => s.start.raise .badOp
  | .idleSc => s.start
  | .idleTxq => s.start

end Sys2Proof.Machine
end

