-- ==== Sys2Proof/Machine/Codec.lean ====
section
/-! DEFINITION. The sixteen codec functions (41_codec.md) and their operations on the internal select `CODEC4`. -/

namespace Sys2Proof.Machine

/-! ### Encode -/

/-- The Indication layout: state byte, then timestamp, `W = 5` (41_codec.md R144, R145). -/
def encIndication (s : Byte) (t : Word) : BitVec 4 × Payload := (5, memWrite (memWrite 0 0 1 s) 1 4 t)

/-- The MeasuredValue16 layout: value, then timestamp, `W = 6` (41_codec.md R146). -/
def encMeasured16 (v : Half) (t : Word) : BitVec 4 × Payload := (6, memWrite (memWrite 0 0 2 v) 2 4 t)

/-- The Command layout: state byte, `W = 1` (41_codec.md R148, R149). -/
def encCommand (s : Byte) : BitVec 4 × Payload := (1, memWrite 0 0 1 s)

/-- The SetPoint16 layout: value, `W = 2` (41_codec.md R150). -/
def encSetPoint16 (v : Half) : BitVec 4 × Payload := (2, memWrite 0 0 2 v)

/-- The 32-bit value layout: value, `W = 4` (41_codec.md R147, R151). -/
def encValue32 (v : Word) : BitVec 4 × Payload := (4, memWrite 0 0 4 v)

/-- The payload of ENC.c goes to the outputs of `CODEC4` (30_encoding.md R96); no state is touched (41_codec.md R140). -/
def State.answerEnc (r : BitVec 4 × Payload) (s : State) : State := s.start.emit (.encoded r.1 r.2)

/-- ENC.SI (41_codec.md R144); the state is the low byte of the `u32` input (log 11). -/
def execEncSi (value ts : Word) (s : State) : Host.Outcome State Fault Refusal :=
  .next (s.answerEnc (encIndication (value.setWidth 8) ts))

/-- ENC.DI (41_codec.md R145). -/
def execEncDi (value ts : Word) (s : State) : Host.Outcome State Fault Refusal :=
  .next (s.answerEnc (encIndication (value.setWidth 8) ts))

/-- ENC.MV16 (41_codec.md R146); the value is the low half of the `u32` input (log 11). -/
def execEncMv16 (value ts : Word) (s : State) : Host.Outcome State Fault Refusal :=
  .next (s.answerEnc (encMeasured16 (value.setWidth 16) ts))

/-- ENC.MV32 (41_codec.md R147): the timestamp is not encoded. -/
def execEncMv32 (value _ts : Word) (s : State) : Host.Outcome State Fault Refusal :=
  .next (s.answerEnc (encValue32 value))

/-- ENC.SC (41_codec.md R148): the timestamp is not encoded. -/
def execEncSc (value _ts : Word) (s : State) : Host.Outcome State Fault Refusal :=
  .next (s.answerEnc (encCommand (value.setWidth 8)))

/-- ENC.DC (41_codec.md R149). -/
def execEncDc (value _ts : Word) (s : State) : Host.Outcome State Fault Refusal :=
  .next (s.answerEnc (encCommand (value.setWidth 8)))

/-- ENC.SP16 (41_codec.md R150). -/
def execEncSp16 (value _ts : Word) (s : State) : Host.Outcome State Fault Refusal :=
  .next (s.answerEnc (encSetPoint16 (value.setWidth 16)))

/-- ENC.SP32 (41_codec.md R151). -/
def execEncSp32 (value _ts : Word) (s : State) : Host.Outcome State Fault Refusal :=
  .next (s.answerEnc (encValue32 value))

/-! ### Decode: `none` is `MalformedFrame` (41_codec.md R142) -/

/-- The Indication layout (41_codec.md R152, R153). -/
def decIndication (len : BitVec 4) (data : Payload) : Option (Byte × Word) :=
  if len.toNat < 5 then none else some (memRead data 0 1, memRead data 1 4)

/-- The MeasuredValue16 layout (41_codec.md R154). -/
def decMeasured16 (len : BitVec 4) (data : Payload) : Option (Half × Word) :=
  if len.toNat < 6 then none else some (memRead data 0 2, memRead data 2 4)

/-- The Command layout (41_codec.md R156, R157). -/
def decCommand (len : BitVec 4) (data : Payload) : Option Byte :=
  if len.toNat < 1 then none else some (memRead data 0 1)

/-- The SetPoint16 layout (41_codec.md R158). -/
def decSetPoint16 (len : BitVec 4) (data : Payload) : Option Half :=
  if len.toNat < 2 then none else some (memRead data 0 2)

/-- The 32-bit value layout (41_codec.md R155, R159). -/
def decValue32 (len : BitVec 4) (data : Payload) : Option Word :=
  if len.toNat < 4 then none else some (memRead data 0 4)

/-- The result of DEC.c goes to the outputs of `CODEC4`: `ok`, the 32-bit value and the timestamp (30_encoding.md R96).
When `ok = 0` the other two outputs are free values (41_codec.md R142, U13, log 6). -/
def State.answerDec (r : Option (Word × Word)) (s : State) : State :=
  match r with
  | some (v, t) => s.start.emit (.decoded true v t)
  | none => s.start.useFree.emit (.decoded false (Config.freeValue s.fresh) (Config.freeStamp s.fresh))

/-- DEC.SI (41_codec.md R152). -/
def execDecSi (len : BitVec 4) (data : Payload) (s : State) : Host.Outcome State Fault Refusal :=
  .next (s.answerDec ((decIndication len data).map fun r => (extState r.1, r.2)))

/-- DEC.DI (41_codec.md R153). -/
def execDecDi (len : BitVec 4) (data : Payload) (s : State) : Host.Outcome State Fault Refusal :=
  .next (s.answerDec ((decIndication len data).map fun r => (extState r.1, r.2)))

/-- DEC.MV16 (41_codec.md R154): the value output is `sext_32(v)`. -/
def execDecMv16 (len : BitVec 4) (data : Payload) (s : State) : Host.Outcome State Fault Refusal :=
  .next (s.answerDec ((decMeasured16 len data).map fun r => (extHalf r.1, r.2)))

/-- DEC.MV32 (41_codec.md R155): the `ts` output is 0 (R142). -/
def execDecMv32 (len : BitVec 4) (data : Payload) (s : State) : Host.Outcome State Fault Refusal :=
  .next (s.answerDec ((decValue32 len data).map fun v => (v, 0)))

/-- DEC.SC (41_codec.md R156). -/
def execDecSc (len : BitVec 4) (data : Payload) (s : State) : Host.Outcome State Fault Refusal :=
  .next (s.answerDec ((decCommand len data).map fun v => (extState v, 0)))

/-- DEC.DC (41_codec.md R157). -/
def execDecDc (len : BitVec 4) (data : Payload) (s : State) : Host.Outcome State Fault Refusal :=
  .next (s.answerDec ((decCommand len data).map fun v => (extState v, 0)))

/-- DEC.SP16 (41_codec.md R158): the value output is `sext_32(v)`. -/
def execDecSp16 (len : BitVec 4) (data : Payload) (s : State) : Host.Outcome State Fault Refusal :=
  .next (s.answerDec ((decSetPoint16 len data).map fun v => (extHalf v, 0)))

/-- DEC.SP32 (41_codec.md R159). -/
def execDecSp32 (len : BitVec 4) (data : Payload) (s : State) : Host.Outcome State Fault Refusal :=
  .next (s.answerDec ((decValue32 len data).map fun v => (v, 0)))

end Sys2Proof.Machine
end

