-- ==== Sys2Proof/Machine/Inbound.lean ====
section
/-! DEFINITION. The inbound path: RX and the arrival of a frame of each class at the handoff slot, and DISPATCH
(43_rx_dispatch.md). -/

namespace Sys2Proof.Machine

/-- The ISR half (43_rx_dispatch.md R201): the slot takes the frame, or the new frame is dropped and counted. -/
def State.receive (f : Frame) (s : State) : State :=
  if s.rxsOcc then s.start.raise .inboundOverflow
  else s.start.fillSlot (Frame.stored f)

/-- RX (43_rx_dispatch.md R201). -/
def execRx (w : Frame) (s : State) : Host.Outcome State Fault Refusal := .next (s.receive w)

/-- `RX.c id, len, bytes` expands to `RX (code(c) << 8) | id, len, bytes` (30_encoding.md R101): what the CORE does when
a frame of class `c` arrives. DEDUCED (log 8). -/
def State.receiveClass (c : MsgClass) (id : Identifier) (len : BitVec 4) (data : Payload) (s : State) : State :=
  s.receive { mt := c.code, id := id, len := len, data := data }

/-- FRAME.SI (30_encoding.md R84, R86, R101). -/
def execFrameSi (id : Identifier) (len : BitVec 4) (data : Payload) (s : State) : Host.Outcome State Fault Refusal :=
  .next (s.receiveClass .si id len data)

/-- FRAME.DI (30_encoding.md R84, R86, R101). -/
def execFrameDi (id : Identifier) (len : BitVec 4) (data : Payload) (s : State) : Host.Outcome State Fault Refusal :=
  .next (s.receiveClass .di id len data)

/-- FRAME.MV16 (30_encoding.md R84, R86, R101). -/
def execFrameMv16 (id : Identifier) (len : BitVec 4) (data : Payload) (s : State) : Host.Outcome State Fault Refusal :=
  .next (s.receiveClass .mv16 id len data)

/-- FRAME.MV32 (30_encoding.md R84, R86, R101). -/
def execFrameMv32 (id : Identifier) (len : BitVec 4) (data : Payload) (s : State) : Host.Outcome State Fault Refusal :=
  .next (s.receiveClass .mv32 id len data)

/-- FRAME.SC (30_encoding.md R84, R86, R101). -/
def execFrameSc (id : Identifier) (len : BitVec 4) (data : Payload) (s : State) : Host.Outcome State Fault Refusal :=
  .next (s.receiveClass .sc id len data)

/-- FRAME.DC (30_encoding.md R84, R86, R101). -/
def execFrameDc (id : Identifier) (len : BitVec 4) (data : Payload) (s : State) : Host.Outcome State Fault Refusal :=
  .next (s.receiveClass .dc id len data)

/-- FRAME.SP16 (30_encoding.md R84, R86, R101). -/
def execFrameSp16 (id : Identifier) (len : BitVec 4) (data : Payload) (s : State) : Host.Outcome State Fault Refusal :=
  .next (s.receiveClass .sp16 id len data)

/-- FRAME.SP32 (30_encoding.md R84, R86, R101). -/
def execFrameSp32 (id : Identifier) (len : BitVec 4) (data : Payload) (s : State) : Host.Outcome State Fault Refusal :=
  .next (s.receiveClass .sp32 id len data)

/-- Steps 3 to 5 of DISPATCH for the matched object `i` of class `c` (43_rx_dispatch.md R205, R210 to R212): decode,
then update the one cell and emit the one callback event, or count `MalformedFrame`. An outbound class has no table to
match in (R206). -/
def State.deliver (c : MsgClass) (i : Nat) (f : Frame) (s : State) : State :=
  match c with
  | .si | .di | .mv16 | .mv32 => s.raise .unmatchedFrame
  | .sc =>
    match decCommand f.len f.data with
    | none => s.raise .malformedFrame
    | some r => (s.setSc i r).callback .sc i (extState r)
  | .dc =>
    match decCommand f.len f.data with
    | none => s.raise .malformedFrame
    | some r => (s.setDc i r).callback .dc i (extState r)
  | .sp16 =>
    match decSetPoint16 f.len f.data with
    | none => s.raise .malformedFrame
    | some r => (s.setSp16 i r).callback .sp16 i (extHalf r)
  | .sp32 =>
    match decValue32 f.len f.data with
    | none => s.raise .malformedFrame
    | some r => (s.setSp32 i r).callback .sp32 i r

/-- DISPATCH (43_rx_dispatch.md R205): class gate, lookup, then decode. -/
def State.dispatch (f : Frame) (s : State) : State :=
  if inbound f.mt then
    match lookup s.cfg (MsgClass.ofCode f.mt) f.id with
    | none => s.raise .unmatchedFrame
    | some i => s.deliver (MsgClass.ofCode f.mt) i f
  else s.raise .unmatchedFrame

end Sys2Proof.Machine
end

