-- ==== Sys2Proof/Machine/Refresh.lean ====
section
/-! DEFINITION. REFRESH and SENDCOMPLETE (44_refresh_tx.md R230 to R237). -/

namespace Sys2Proof.Machine

/-- Step 1 of REFRESH (44_refresh_tx.md R230, R231): the slot is freed and its frame dispatched. -/
def State.drain (s : State) : State :=
  if s.rxsOcc then s.freeSlot.dispatch s.rxsFrame else s

/-- Step 2 of REFRESH (44_refresh_tx.md R230, R232, R233, R235): the head frame is presented when there is one and it is
not already with the driver; accepted, it is in flight; rejected, nothing changes. -/
def State.present (s : State) : State :=
  if s.inflight then s
  else
    match s.txq.peek with
    | none => s
    | some g =>
      let p := s.emit (.tx (TxPresentation.ofFrame g))
      if s.txAccept then p.setInflight true else p.raise .transmitRejected

/-- REFRESH (44_refresh_tx.md R230): step 1, step 2, then the answer `OK` whatever they met. -/
def execRefresh (s : State) : Host.Outcome State Fault Refusal := .next (s.start.drain.present.raise .ok)

/-- SENDCOMPLETE (44_refresh_tx.md R236, R237): commits the head frame in flight; ignored when nothing is in flight. -/
def execSendComplete (s : State) : Host.Outcome State Fault Refusal :=
  .next (if s.inflight then (s.start.setTxq s.txq.commit).setInflight false else s.start)

end Sys2Proof.Machine
end

