-- ==== Sys2Proof/Machine/Status.lean ====
section
/-! DEFINITION. NOP, RD_STAT, RD_CNT (45_status.md R251 to R253). -/

namespace Sys2Proof.Machine

/-- NOP (45_status.md R251). -/
def execNop (s : State) : Host.Outcome State Fault Refusal := .next (s.start.raise .ok)

/-- RD_STAT (45_status.md R252). -/
def execRdStat (s : State) : Host.Outcome State Fault Refusal := .next (s.start.result .ok s.statWord)

/-- The counter select of RD_CNT (30_encoding.md R95). -/
def Counters.select (c : Counters) (sel : Index) : Option Word :=
  match sel.toNat with
  | 0 => some c.unmatched
  | 1 => some c.inovf
  | 2 => some c.malformed
  | _ => none

/-- RD_CNT (45_status.md R253). -/
def execRdCnt (sel : Index) (s : State) : Host.Outcome State Fault Refusal :=
  match s.cnt.select sel with
  | some v => .next (s.start.result .ok v)
  | none => .next (s.start.raise .badIndex)

end Sys2Proof.Machine
end

