-- ==== Sys2Proof/Machine/Txq.lean ====
section
/-! DEFINITION. The three TXQ primitives as operations of the internal select `TXQ2` (40_txq.md R121 to R123). -/

namespace Sys2Proof.Machine

/-- ENQ (40_txq.md R121). -/
def execEnq (f : Frame) (s : State) : Host.Outcome State Fault Refusal :=
  .next ((s.start.setTxq (s.txq.enq f).1).emit (.txqOk (s.txq.enq f).2))

/-- PEEK (40_txq.md R122); when the buffer is empty the frame output is a free value (U13, log 6). -/
def execPeek (s : State) : Host.Outcome State Fault Refusal :=
  match s.txq.peek with
  | some f => .next (s.start.emit (.txqFrame true f))
  | none => .next (s.start.useFree.emit (.txqFrame false (Config.freeFrame s.fresh)))

/-- COMMIT (40_txq.md R123). -/
def execCommit (s : State) : Host.Outcome State Fault Refusal :=
  .next (s.start.setTxq s.txq.commit)

end Sys2Proof.Machine
end

