-- ==== Sys2Proof/Machine/Write.lean ====
section
/-! DEFINITION. The application writes WR_SI, WR_DI, WR_MV16, WR_MV32 over their common body APPLYWRITE
(42_write.md R180 to R184). -/

namespace Sys2Proof.Machine

/-- Steps 4 and the answer of APPLYWRITE: ENQ of the built frame; on a full buffer `BufferFull`, what was written
before it staying written (42_write.md R180, R185). -/
def State.enqueueAndAnswer (f : Frame) (s : State) : State :=
  (s.setTxq (s.txq.enq f).1).raise (if (s.txq.enq f).2 then .ok else .bufferFull)

/-- APPLYWRITE (42_write.md R180): `BadIndex` first; then the cell takes the value and `now`, and the frame of class `c`
with the object's Identifier and the encoded payload is enqueued. -/
def State.applyWrite (c : MsgClass) (idx : Index) (store : State → State) (enc : BitVec 4 × Payload) (s : State) : State :=
  match (idTable s.cfg c)[idx.toNat]? with
  | none => s.start.raise .badIndex
  | some id => (store s.start).enqueueAndAnswer { mt := c.code, id := id, len := enc.1, data := enc.2 }

/-- WR_SI (42_write.md R181). -/
def execWrSi (idx : Index) (state : Byte) (s : State) : Host.Outcome State Fault Refusal :=
  .next (s.applyWrite .si idx (State.setSi idx.toNat { state := state, ts := s.time }) (encIndication state s.time))

/-- WR_DI (42_write.md R182). -/
def execWrDi (idx : Index) (state : Byte) (s : State) : Host.Outcome State Fault Refusal :=
  .next (s.applyWrite .di idx (State.setDi idx.toNat { state := state, ts := s.time }) (encIndication state s.time))

/-- WR_MV16 (42_write.md R183). -/
def execWrMv16 (idx : Index) (value : Half) (s : State) : Host.Outcome State Fault Refusal :=
  .next (s.applyWrite .mv16 idx (State.setMv16 idx.toNat { value := value, ts := s.time }) (encMeasured16 value s.time))

/-- WR_MV32 (42_write.md R184): the cell takes the Timestamp, the frame does not carry it. -/
def execWrMv32 (idx : Index) (value : Word) (s : State) : Host.Outcome State Fault Refusal :=
  .next (s.applyWrite .mv32 idx (State.setMv32 idx.toNat { value := value, ts := s.time }) (encValue32 value))

end Sys2Proof.Machine
end

