-- ==== Sys2Proof/Machine/Dispatch.lean ====
section
/-! DEFINITION. One arm per instruction of spec/opcode_table.json. -/

namespace Sys2Proof.Machine

def exec (i : Instr) (s : State) : Host.Outcome State Fault Refusal :=
  match i with
  | .nop => Sys2Proof.Machine.execNop s
  | .wrSi idx state => Sys2Proof.Machine.execWrSi idx state s
  | .wrDi idx state => Sys2Proof.Machine.execWrDi idx state s
  | .wrMv16 idx value => Sys2Proof.Machine.execWrMv16 idx value s
  | .wrMv32 idx value => Sys2Proof.Machine.execWrMv32 idx value s
  | .refresh => Sys2Proof.Machine.execRefresh s
  | .rdStat => Sys2Proof.Machine.execRdStat s
  | .rdCnt sel => Sys2Proof.Machine.execRdCnt sel s
  | .rx w => Sys2Proof.Machine.execRx w s
  | .sendComplete => Sys2Proof.Machine.execSendComplete s
  | .enq f => Sys2Proof.Machine.execEnq f s
  | .peek => Sys2Proof.Machine.execPeek s
  | .commit => Sys2Proof.Machine.execCommit s
  | .encSi value ts => Sys2Proof.Machine.execEncSi value ts s
  | .encDi value ts => Sys2Proof.Machine.execEncDi value ts s
  | .encMv16 value ts => Sys2Proof.Machine.execEncMv16 value ts s
  | .encMv32 value ts => Sys2Proof.Machine.execEncMv32 value ts s
  | .encSc value ts => Sys2Proof.Machine.execEncSc value ts s
  | .encDc value ts => Sys2Proof.Machine.execEncDc value ts s
  | .encSp16 value ts => Sys2Proof.Machine.execEncSp16 value ts s
  | .encSp32 value ts => Sys2Proof.Machine.execEncSp32 value ts s
  | .decSi len data => Sys2Proof.Machine.execDecSi len data s
  | .decDi len data => Sys2Proof.Machine.execDecDi len data s
  | .decMv16 len data => Sys2Proof.Machine.execDecMv16 len data s
  | .decMv32 len data => Sys2Proof.Machine.execDecMv32 len data s
  | .decSc len data => Sys2Proof.Machine.execDecSc len data s
  | .decDc len data => Sys2Proof.Machine.execDecDc len data s
  | .decSp16 len data => Sys2Proof.Machine.execDecSp16 len data s
  | .decSp32 len data => Sys2Proof.Machine.execDecSp32 len data s
  | .frameSi id len data => Sys2Proof.Machine.execFrameSi id len data s
  | .frameDi id len data => Sys2Proof.Machine.execFrameDi id len data s
  | .frameMv16 id len data => Sys2Proof.Machine.execFrameMv16 id len data s
  | .frameMv32 id len data => Sys2Proof.Machine.execFrameMv32 id len data s
  | .frameSc id len data => Sys2Proof.Machine.execFrameSc id len data s
  | .frameDc id len data => Sys2Proof.Machine.execFrameDc id len data s
  | .frameSp16 id len data => Sys2Proof.Machine.execFrameSp16 id len data s
  | .frameSp32 id len data => Sys2Proof.Machine.execFrameSp32 id len data s

end Sys2Proof.Machine
end

