-- ==== Sys2Proof/Machine/Step.lean ====
section
/-! DEFINITION. One step of the machine: the next event of the total order is performed (20_memory.md R72), or, when
nothing is presented, the CORE holds its state (10_state.md R21). -/

namespace Sys2Proof.Machine

/-- One step. A word that selects no operation is answered as its rule says (45_status.md R254, 30_encoding.md R98). -/
def step (s : State) : Host.Outcome State Fault Refusal :=
  match s.pending with
  | [] => .next s.start
  | .reset :: rest => .next (State.applyReset { s with pending := rest })
  | .op word time accept :: rest =>
    match decode word with
    | .ok i => exec i (s.take time accept rest)
    | .error r => .next ((s.take time accept rest).reject r)

/-- `s` with the opcode-table word of `nbits` bits presented before every other event, the input levels as they stand
(log 1): the very next step performs it. -/
def State.withFetchWord (s : State) (nbits w : Nat) : State :=
  match PortWord.ofTable nbits w with
  | none => s
  | some p => { s with pending := .op p s.time s.txAccept :: s.pending }

end Sys2Proof.Machine
end

