-- ==== Sys2Proof/Safety.lean ====
section
/-! DEFINITION. What a safe run of the CORE keeps: the invariants of 10_state.md R26, R30, 30_encoding.md R87 and
41_codec.md R148, and what it means for a word to come from a port. -/

namespace Sys2Proof.Machine

/-- The TXQ invariant `TAIL = (HEAD + COUNT) mod 10` (10_state.md R26); the ranges of the three are their types'. -/
abbrev Txq.inv (q : Txq) : Prop := q.tail.val = (q.head.val + q.count.val) % 10

/-- The required width `W_c` of a class (30_encoding.md R86). -/
def requiredWidth : MsgClass → Nat
  | .si => 5
  | .di => 5
  | .mv16 => 6
  | .mv32 => 4
  | .sc => 1
  | .dc => 1
  | .sp16 => 2
  | .sp32 => 4

/-- What a write operation enqueues: a frame of an outbound class whose length is the class's width
(42_write.md R180, 41_codec.md R141). -/
abbrev Frame.outbound (f : Frame) : Prop :=
  inbound f.mt = false ∧ f.len.toNat = requiredWidth (MsgClass.ofCode f.mt)

/-- Each table holds `N_c` cells (10_state.md R33 to R36). -/
abbrev Cells.fits (c : Cells) (g : Config) : Prop :=
  c.si.length = g.idSi.length ∧ c.di.length = g.idDi.length ∧ c.mv16.length = g.idMv16.length ∧
  c.mv32.length = g.idMv32.length ∧ c.sc.length = g.idSc.length ∧ c.dc.length = g.idDc.length ∧
  c.sp16.length = g.idSp16.length ∧ c.sp32.length = g.idSp32.length

/-- The event is a reset or a word at a port of the CORE, none at an internal select, which no agent reaches
(30_encoding.md R96, 00_scope.md R7). -/
def Stimulus.atPort : Stimulus → Bool
  | .reset => true
  | .op word _ _ => word.atPort

/-- What every step keeps when words come from the CORE's ports. -/
structure State.Inv (s : State) : Prop where
  /-- 10_state.md R26. -/
  ring : s.txq.inv
  /-- `INFLIGHT = 1` implies `COUNT ≥ 1` (10_state.md R30). -/
  handed : s.inflight = true → 0 < s.txq.count.val
  /-- No stored frame has a `DataLength` above 8 (30_encoding.md R87): the slots. -/
  slotLens : ∀ i : Fin 10, legalLen (s.txq.slots[i.val]'i.isLt).len = true
  /-- The same for `RXS_FRAME`. -/
  slotLen : legalLen s.rxsFrame.len = true
  /-- Every queued frame is one a write operation built (42_write.md R180): "The CORE itself never transmits a
  Command" (41_codec.md R148). -/
  outbound : ∀ f ∈ s.txq.queue, Frame.outbound f
  /-- The tables have their sizes. -/
  tables : s.cells.fits s.cfg
  /-- Nothing to come is an internal select. -/
  ports : ∀ e ∈ s.pending, e.atPort = true

/-- The event removes the head frame or resets the CORE: a `SENDCOMPLETE`, the bare `COMMIT` select, or reset. -/
def Stimulus.frees : Stimulus → Bool
  | .reset => true
  | .op word _ _ =>
    match decode word with
    | .ok .sendComplete => true
    | .ok .commit => true
    | _ => false

end Sys2Proof.Machine
end

