-- ==== Sys2Proof/Certificates/Slice0/Obligations.lean ====
section
/-! DEFINITION. The statements about the CORE, each from the numbered rules of spec/, with the words they share. -/

open Sys2Proof Sys2Proof.Machine

namespace Sys2Proof.Machine.Says

/-! ### Words the statements share -/

/-- `t` follows `s` on the buffer as after a successful ENQ of `f` (40_txq.md R121). -/
def Enqueued (f : Frame) (q r : Txq) : Prop :=
  r.slots = q.slots.set q.tail.val f q.tail.isLt ∧ r.head = q.head ∧
  r.tail.val = (q.tail.val + 1) % 10 ∧ r.count.val = q.count.val + 1

/-- `r` follows `q` as after a COMMIT that removes the head frame (40_txq.md R123). -/
def HeadRemoved (q r : Txq) : Prop :=
  r.slots = q.slots ∧ r.head.val = (q.head.val + 1) % 10 ∧ r.tail = q.tail ∧ r.count.val + 1 = q.count.val

/-- The payload, byte by byte, `Data[0]` first (00_scope.md R14). -/
def Bytes (d : Payload) (b0 b1 b2 b3 b4 b5 b6 b7 : Byte) : Prop :=
  dataByte d 0 = b0 ∧ dataByte d 1 = b1 ∧ dataByte d 2 = b2 ∧ dataByte d 3 = b3 ∧
  dataByte d 4 = b4 ∧ dataByte d 5 = b5 ∧ dataByte d 6 = b6 ∧ dataByte d 7 = b7

/-- Byte `i` of a 32-bit value, least significant first. -/
def byteOf (v : Word) (i : Nat) : Byte := v.extractLsb' (8 * i) 8

/-- A response at the MAIN port. -/
def answer (e : Cause) (rdata : Word) : Output := .rsp { res := e, rdata := rdata }

/-- `i` is the first object of the table with this Identifier (43_rx_dispatch.md R207, R208). -/
def FirstMatch (ids : List Identifier) (id : Identifier) (i : Nat) : Prop :=
  ids[i]? = some id ∧ ∀ j, j < i → ids[j]? ≠ some id

/-- The presentation step 2 of REFRESH makes, if any (44_refresh_tx.md R230, 30_encoding.md R90). -/
def presented (s : State) : List Output :=
  if s.txq.count.val = 0 ∨ s.inflight = true then []
  else
    let g := s.txq.slots[s.txq.head.val]'s.txq.head.isLt
    [.tx { wid := g.mt ++ g.id, frameKind := .data, idKind := .standard, len := g.len, data := g.data }]

/-- `INFLIGHT` after step 2 of REFRESH (44_refresh_tx.md R233). -/
def handedOver (s : State) : Bool := s.inflight || (decide (s.txq.count.val ≠ 0) && s.txAccept)

/-- The state a REFRESH leaves, from what its inbound half made of the cells and counters and from the events it
emitted (44_refresh_tx.md R230): slot free, then the presentation, then the answer `OK`. -/
def refreshed (s : State) (cells : Cells) (cnt : Counters) (events : List Output) : State :=
  { s with
    rxsOcc := false, cells := cells, cnt := cnt, inflight := handedOver s
    out := events ++ presented s ++ [answer .ok 0] }

/-- A callback event (30_encoding.md R92). -/
def event (cls : BitVec 3) (i : Nat) (value : Word) : Output :=
  .cb { cls := cls, idx := BitVec.ofNat 8 i, value := value }

/-- The effect of a frame that arrives at the handoff slot (43_rx_dispatch.md R201). -/
def arrived (s : State) (mt : BitVec 3) (id : Identifier) (len : BitVec 4) (data : Payload) : State :=
  if s.rxsOcc = true then { s with cnt := { s.cnt with inovf := s.cnt.inovf + 1 }, out := [] }
  else
    { s with
      rxsOcc := true, out := []
      rxsFrame := { mt := mt, id := id, len := (if len.toNat ≤ 8 then len else 8), data := data } }

/-- The three TXQ primitives. -/
def isTxqOp : Instr → Prop
  | .enq _ => True
  | .peek => True
  | .commit => True
  | _ => False

/-- The four write operations. -/
def isWrite : Instr → Prop
  | .wrSi _ _ => True
  | .wrDi _ _ => True
  | .wrMv16 _ _ => True
  | .wrMv32 _ _ => True
  | _ => False

/-- The operations that put a frame into the handoff slot. -/
def isArrival : Instr → Prop
  | .rx _ => True
  | .frameSi _ _ _ => True
  | .frameDi _ _ _ => True
  | .frameMv16 _ _ _ => True
  | .frameMv32 _ _ _ => True
  | .frameSc _ _ _ => True
  | .frameDc _ _ _ => True
  | .frameSp16 _ _ _ => True
  | .frameSp32 _ _ _ => True
  | _ => False

/-- The operations of 45_status.md. -/
def isStatus : Instr → Prop
  | .nop => True
  | .rdStat => True
  | .rdCnt _ => True
  | _ => False

/-- An output with the frame of an `Empty` PEEK left out: "frame output not meaningful" (40_txq.md R122). -/
def meaningful : Output → Output
  | .txqFrame false _ => .txqFrame false { mt := 0, id := 0, len := 0, data := 0 }
  | o => o

/-- Operations performed one after the other: the answers of each, and the state after the last. -/
def perform : List Instr → State → Option (List (List Output) × State)
  | [], s => some ([], s)
  | i :: rest, s =>
    match exec i s with
    | .next t => (perform rest t).map fun r => (t.out.map meaningful :: r.1, r.2)
    | .fault _ => none
    | .refused _ => none

/-- For one outbound class, given by its Identifier table, its write, its cells and what a cell is: a `write` of `x` to an
object of the table at `TIME = t2` leaves the object's cell at `x` and `t2` through any further events, at every port, that
are neither a reset nor a write to the same object (42_write.md R180, R186). -/
def LastWriteStays {α β : Type} (table : Config → List Identifier) (write : Index → α → Instr) (cells : Cells → List β)
    (cell : α → Word → β) : Prop :=
  ∀ (s : State) (word : PortWord) (idx : Index) (x : α) (t2 : Word) (accept : Bool) (between rest : List Stimulus),
    s.cells.fits s.cfg → idx.toNat < (table s.cfg).length →
    s.pending = .op word t2 accept :: (between ++ rest) → decode word = .ok (write idx x) →
    (∀ e ∈ between, e ≠ .reset ∧ ∀ w t a y, e = .op w t a → decode w ≠ .ok (write idx y)) →
      ∃ t, Sys2Proof.core.run (between.length + 1) s = .next t ∧
        (cells t.cells)[idx.toNat]? = some (cell x t2) ∧ t.pending = rest

end Sys2Proof.Machine.Says

open Sys2Proof.Machine.Says

/-! ### Words and formats -/

/-- Words written out in 95_test_vectors.md sections 3 and 4 decode to the operations they stand for. -/
def Obligations.SpecWordsDecodeToTheirOperations : Prop :=
  decode (.app 0x00FFFFFFFFFF) = .ok .nop ∧
  decode (.app 0x1000ABCDEF01) = .ok (.wrSi 0 1) ∧
  decode (.app 0x200100000001) = .ok (.wrDi 1 1) ∧
  decode (.app 0x300000018000) = .ok (.wrMv16 0 0x8000) ∧
  decode (.app 0x4000FFFFFFFB) = .ok (.wrMv32 0 0xFFFFFFFB) ∧
  decode (.app 0x5012DEADBEEF) = .ok .refresh ∧
  decode (.app 0x60FFFFFFFFFF) = .ok .rdStat ∧
  decode (.app 0x70FF00000000) = .ok (.rdCnt 255) ∧
  decode (.app 0x510000000000) = .error .badOp ∧
  decode (.rx 0x740FDDCCBBAA075BCD15) =
    .ok (.rx { mt := 7, id := 0x40, len := 15, data := 0xDDCCBBAA075BCD15 }) ∧
  decode (.sc 1) = .ok .sendComplete ∧
  decode (.txq 1 0x01050000000000123401) =
    .ok (.enq { mt := 0, id := 0x10, len := 5, data := 0x123401 }) ∧
  decode (.codec 0b0010 0xFFFFF000 100 0 0) = .ok (.encMv16 0xFFFFF000 100) ∧
  decode (.codec 0b1110 0 0 2 0x0869) = .ok (.decSp16 2 0x0869) ∧
  decode (.wid 0x531 1 3) = .ok (.frameDc 0x31 1 3)

/-- Decoding an encoded instruction gives it back, every operand at every value (30_encoding.md sections 2 to 6). -/
def Obligations.DecodeOfEncodeIsTheInstruction : Prop :=
  ∀ i : Instr, decode (encode i) = .ok i

/-- The other direction on `APP48` (30_encoding.md section 6, the ignored bits of opcode_table.json): the encoder gives
back every bit the operation uses, and a word that differs only in ignored bits selects the same operation. -/
def Obligations.AppWordIsItsUsedBits : Prop :=
  ∀ (w : BitVec 48) (i : Instr), decode (.app w) = .ok i →
    encode i = .app (w &&& i.usedAppBits) ∧
    ∀ w' : BitVec 48, w' &&& i.usedAppBits = w &&& i.usedAppBits → decode (.app w') = .ok i

/-- `FRM79` (30_encoding.md R88): the places of the fields, and that the word is nothing but them. -/
def Obligations.FrameWordHasItsFields : Prop :=
  (∀ f : Frame, f.word.extractLsb' 76 3 = f.mt ∧ f.word.extractLsb' 68 8 = f.id ∧
      f.word.extractLsb' 64 4 = f.len ∧ f.word.extractLsb' 0 64 = f.data ∧
      f.word.extractLsb' 68 11 = f.wid ∧ Frame.ofWord f.word = f) ∧
  (∀ w : BitVec 79, (Frame.ofWord w).word = w ∧
      ∀ i : Fin 8, dataByte (Frame.ofWord w).data i.val = w.extractLsb' (8 * i.val) 8)

/-! ### Steps -/

/-- A step performs the decoded operation of the next event at the input levels of its moment (20_memory.md section 5). -/
def Obligations.StepRunsTheDecodedOperation : Prop :=
  ∀ (s : State) (word : PortWord) (time : Word) (accept : Bool) (rest : List Stimulus) (i : Instr),
    s.pending = .op word time accept :: rest → decode word = .ok i →
      step s = exec i { s with time := time, txAccept := accept, pending := rest }

/-- The word placed by `withFetchWord` is the one the next step performs. -/
def Obligations.PlacedWordRunsNext : Prop :=
  ∀ (s : State) (nbits w : Nat) (i : Instr), decodeTableWord nbits w = some i →
    step (s.withFetchWord nbits w) = exec i s

/-- Between operations the CORE holds its state (10_state.md section 1; log 15), and an idle port word selects nothing
(30_encoding.md section 7; log 19). -/
def Obligations.IdlePortsHoldTheState : Prop :=
  ∀ s : State,
    (s.pending = [] → step s = .next { s with out := [] }) ∧
    (∀ time accept rest, s.pending = .op (.sc 0) time accept :: rest →
      step s = .next { s with out := [], time := time, txAccept := accept, pending := rest }) ∧
    (∀ f time accept rest, s.pending = .op (.txq 0 f) time accept :: rest →
      step s = .next { s with out := [], time := time, txAccept := accept, pending := rest })

/-- A reserved command word is answered `BadOp` and changes nothing (45_status.md R254). -/
def Obligations.ReservedWordAnswersBadOp : Prop :=
  ∀ (s : State) (w : BitVec 48) (time : Word) (accept : Bool) (rest : List Stimulus),
    s.pending = .op (.app w) time accept :: rest →
    (8 ≤ (w.extractLsb' 44 4).toNat ∨ w.extractLsb' 40 4 ≠ 0) →
      step s = .next { s with out := [answer .badOp 0], time := time, txAccept := accept, pending := rest }

/-- Every `APP48` word gets exactly one response, the last output, with one of the four codes of that port under its number
in `RSP35`, and read data only from RD_STAT and RD_CNT; words at the other ports get none (30_encoding.md R93). -/
def Obligations.EveryCommandWordGetsOneResponse : Prop :=
  (∀ (s : State) (w : BitVec 48) (time : Word) (accept : Bool) (rest : List Stimulus),
    s.pending = .op (.app w) time accept :: rest →
      ∃ t before r, step s = .next t ∧ t.out = before ++ [.rsp r] ∧ (∀ x, .rsp x ∉ before) ∧
        ((r.res = .ok ∧ r.word.extractLsb' 32 3 = 0) ∨ (r.res = .bufferFull ∧ r.word.extractLsb' 32 3 = 1) ∨
          (r.res = .badIndex ∧ r.word.extractLsb' 32 3 = 6) ∨ (r.res = .badOp ∧ r.word.extractLsb' 32 3 = 7)) ∧
        (r.rdata ≠ 0 → r.res = .ok ∧ (decode (.app w) = .ok .rdStat ∨ ∃ sel, decode (.app w) = .ok (.rdCnt sel))) ∧
        r.word.extractLsb' 0 32 = r.rdata) ∧
  (∀ (s : State) (word : PortWord) (time : Word) (accept : Bool) (rest : List Stimulus),
    s.pending = .op word time accept :: rest → word.port ≠ .main →
      ∃ t, step s = .next t ∧ ∀ x, .rsp x ∉ t.out)

/-- No step writes the configuration, at any length of run (00_scope.md R11). That no step stops is what the model deduces
from 60_exceptions.md section 4 (log 21); that a step takes one event off `pending`, and holds the state when there is none,
is the model's form of the total order (logs 1 and 15). -/
def Obligations.NoRunStopsOrWritesTheConfiguration : Prop :=
  ∀ (n : Nat) (s : State), ∃ t : State,
    Sys2Proof.core.run n s = .next t ∧ t.cfg = s.cfg ∧ t.pending = s.pending.drop n

/-! ### Reset -/

/-- The state after reset under every configuration (10_state.md R43): every register for which the spec gives a value,
and the idle ports; `State.reset` is that state under one of them. -/
def Obligations.ResetValues : Prop :=
  State.reset = State.resetWith State.reset.cfg ∧ ∀ c : Config, ∀ s : State, s = State.resetWith c →
    s.txq.head = 0 ∧ s.txq.tail = 0 ∧ s.txq.count = 0 ∧ s.inflight = false ∧ s.rxsOcc = false ∧
    s.cells.si = List.replicate c.idSi.length { state := 0, ts := 0 } ∧
    s.cells.di = List.replicate c.idDi.length { state := 0, ts := 0 } ∧
    s.cells.mv16 = List.replicate c.idMv16.length { value := 0, ts := 0 } ∧
    s.cells.mv32 = List.replicate c.idMv32.length { value := 0, ts := 0 } ∧
    s.cells.sc = List.replicate c.idSc.length 0 ∧ s.cells.dc = List.replicate c.idDc.length 0 ∧
    s.cells.sp16 = List.replicate c.idSp16.length 0 ∧ s.cells.sp32 = List.replicate c.idSp32.length 0 ∧
    s.cnt.unmatched = 0 ∧ s.cnt.inovf = 0 ∧ s.cnt.malformed = 0 ∧ s.out = []

/-- Reset between two operations puts every register at its reset value and keeps the configuration, and the
`SENDCOMPLETE` of a frame handed over before it is ignored (70_reset_and_hazards.md section 1). Two clauses are the model's
choice: that a reset is an event of the order (log 14), and, in the equation of the whole `txq`, that the ten slots, which
10_state.md section 8 leaves unspecified, hold the zero frames of log 5. -/
def Obligations.ResetDiscardsEverything : Prop :=
  ∀ (s : State) (rest : List Stimulus), s.pending = .reset :: rest →
    ∃ t : State, step s = .next t ∧
      t.txq = (State.resetWith s.cfg).txq ∧ t.inflight = false ∧ t.rxsOcc = false ∧
      t.cells = (State.resetWith s.cfg).cells ∧ t.cnt = (State.resetWith s.cfg).cnt ∧
      t.cfg = s.cfg ∧ t.out = [] ∧ t.pending = rest ∧
      exec .sendComplete t = .next t ∧
      ∃ u r, exec .rdStat t = .next u ∧ u.out = [answer .ok r] ∧ r = 0x00000010

/-! ### TXQ -/

/-- ENQ (40_txq.md R121): reject on full with nothing changed, else append at the tail; its corner cases under the
invariant of 10_state.md R26. -/
def Obligations.EnqAppendsAtTailOrRejects : Prop :=
  ∀ (f : Frame) (s : State),
    (∀ w : BitVec 79, decode (.txq 1 w) = .ok (.enq (Frame.ofWord w))) ∧
    (s.txq.count = 10 → exec (.enq f) s = .next { s with out := [.txqOk false] }) ∧
    (s.txq.count ≠ 10 → ∃ q : Txq, exec (.enq f) s = .next { s with txq := q, out := [.txqOk true] } ∧
      Enqueued f s.txq q ∧ q.empty = false ∧ (q.full = true ↔ s.txq.count = 9) ∧
      (s.txq.inv → (∀ k, k < s.txq.count.val → q.slotAt k = s.txq.slotAt k) ∧
        (s.txq.count = 0 → q.peek = some f)))

/-- PEEK (40_txq.md R122): the head frame, or `Empty` with a frame output that means nothing; no register changes (the
model's counter of free values may). -/
def Obligations.PeekReturnsTheHeadFrame : Prop :=
  ∀ s : State,
    (∀ w : BitVec 79, decode (.txq 2 w) = .ok .peek) ∧
    (s.txq.count = 0 → ∃ n f, exec .peek s = .next { s with fresh := n, out := [.txqFrame false f] }) ∧
    (s.txq.count ≠ 0 →
      exec .peek s = .next { s with out := [.txqFrame true (s.txq.slots[s.txq.head.val]'s.txq.head.isLt)] }) ∧
    (s.txq.count = 10 → s.txq.inv → s.txq.head = s.txq.tail)

/-- COMMIT (40_txq.md R123): removes the head frame; nothing on an empty buffer; never looks at `INFLIGHT`. -/
def Obligations.CommitRemovesTheHeadFrame : Prop :=
  ∀ s : State,
    (∀ w : BitVec 79, decode (.txq 3 w) = .ok .commit) ∧
    (s.txq.count = 0 → exec .commit s = .next { s with out := [] }) ∧
    (s.txq.count ≠ 0 → ∃ q : Txq, exec .commit s = .next { s with txq := q, out := [] } ∧
      HeadRemoved s.txq q ∧ q.full = false ∧ (q.empty = true ↔ s.txq.count = 1))

/-- The ring is a queue of at most ten frames (40_txq.md section 3): ENQ appends to `Q` or leaves it, PEEK reads its
first frame, COMMIT drops it. -/
def Obligations.RingRefinesTheQueue : Prop :=
  ∀ s : State, s.txq.inv →
    s.txq.queue.length = s.txq.count.val ∧
    (∀ f, s.txq.queue.length < 10 → ∃ t, exec (.enq f) s = .next t ∧ t.out = [.txqOk true] ∧
      t.txq.queue = s.txq.queue ++ [f] ∧ t.txq.inv) ∧
    (∀ f, s.txq.queue.length = 10 → ∃ t, exec (.enq f) s = .next t ∧ t.out = [.txqOk false] ∧ t.txq = s.txq) ∧
    (∃ t, exec .peek s = .next t ∧ t.txq = s.txq ∧
      ∀ g, s.txq.queue.head? = some g ↔ t.out = [.txqFrame true g]) ∧
    (∃ t, exec .commit s = .next t ∧ t.txq.queue = s.txq.queue.tail ∧ t.txq.inv)

/-- Two buffers with the same contents answer every sequence of ENQ, PEEK and COMMIT alike, whatever their `HEAD` and
dead slots (40_txq.md section 3). -/
def Obligations.SameContentsGiveSameAnswers : Prop :=
  ∀ (ops : List Instr) (s t : State), (∀ i ∈ ops, isTxqOp i) → s.txq.inv → t.txq.inv → s.txq.queue = t.txq.queue →
    ∃ answers u v, perform ops s = some (answers, u) ∧ perform ops t = some (answers, v) ∧
      u.txq.queue = v.txq.queue ∧ u.txq.inv ∧ v.txq.inv

/-- From any empty buffer ten ENQs succeed, the eleventh is rejected and the ten stay, in order (40_txq.md section 3). -/
def Obligations.EleventhEnqueueIsRejected : Prop :=
  ∀ (s : State) (fs : List Frame) (f : Frame), s.txq.inv → s.txq.count = 0 → fs.length = 10 →
    ∃ t, perform (fs.map Instr.enq) s = some (List.replicate 10 [.txqOk true], t) ∧ t.txq.queue = fs ∧
      ∃ u, exec (.enq f) t = .next u ∧ u.out = [.txqOk false] ∧ u.txq = t.txq

/-- Any number of COMMITs on an empty buffer leave it, and an ENQ then a PEEK return the frame (40_txq.md section 3). -/
def Obligations.DrainingAnEmptyBufferIsIdempotent : Prop :=
  ∀ (n : Nat) (s : State) (f : Frame), s.txq.inv → s.txq.count = 0 →
    ∃ t u v, perform (List.replicate n .commit) s = some (List.replicate n [], t) ∧ t.txq = s.txq ∧
      exec (.enq f) t = .next u ∧ exec .peek u = .next v ∧ v.out = [.txqFrame true f]

/-- Every step keeps the TXQ invariant, the bare selects included (10_state.md section 2). -/
def Obligations.EveryStepKeepsTheRingInvariant : Prop :=
  ∀ s t : State, s.txq.inv → step s = .next t → t.txq.inv

/-! ### CODEC -/

/-- ENC.SI and ENC.DI (41_codec.md R144, R145): state byte, then the timestamp, `len = 5`. -/
def Obligations.EncodeIndicationLayout : Prop :=
  ∀ (x : Byte) (t : Word) (s : State) (l : BitVec 4) (d : Payload),
    decode (.codec 0b0000 (x.setWidth 32) t l d) = .ok (.encSi (x.setWidth 32) t) ∧
    decode (.codec 0b0001 (x.setWidth 32) t l d) = .ok (.encDi (x.setWidth 32) t) ∧
    ∃ e : Payload, Bytes e x (byteOf t 0) (byteOf t 1) (byteOf t 2) (byteOf t 3) 0 0 0 ∧
      exec (.encSi (x.setWidth 32) t) s = .next { s with out := [.encoded 5 e] } ∧
      exec (.encDi (x.setWidth 32) t) s = .next { s with out := [.encoded 5 e] }

/-- ENC.MV16 (41_codec.md R146): the two value bytes, then the timestamp, `len = 6`. -/
def Obligations.EncodeMeasured16Layout : Prop :=
  ∀ (x : Half) (v t : Word) (s : State) (l : BitVec 4) (d : Payload),
    (v = x.setWidth 32 ∨ v = x.signExtend 32) →
    decode (.codec 0b0010 v t l d) = .ok (.encMv16 v t) ∧
    ∃ e : Payload, Bytes e (x.extractLsb' 0 8) (x.extractLsb' 8 8) (byteOf t 0) (byteOf t 1) (byteOf t 2) (byteOf t 3) 0 0 ∧
      exec (.encMv16 v t) s = .next { s with out := [.encoded 6 e] }

/-- ENC.MV32 and ENC.SP32 (41_codec.md R147, R151): the four value bytes, `len = 4`, no timestamp. -/
def Obligations.EncodeValue32Layout : Prop :=
  ∀ (v t : Word) (s : State) (l : BitVec 4) (d : Payload),
    decode (.codec 0b0011 v t l d) = .ok (.encMv32 v t) ∧
    decode (.codec 0b0111 v t l d) = .ok (.encSp32 v t) ∧
    ∃ e : Payload, Bytes e (byteOf v 0) (byteOf v 1) (byteOf v 2) (byteOf v 3) 0 0 0 0 ∧
      exec (.encMv32 v t) s = .next { s with out := [.encoded 4 e] } ∧
      exec (.encSp32 v t) s = .next { s with out := [.encoded 4 e] }

/-- ENC.SC and ENC.DC (41_codec.md R148, R149): the state byte, `len = 1`, no timestamp. -/
def Obligations.EncodeCommandLayout : Prop :=
  ∀ (x : Byte) (t : Word) (s : State) (l : BitVec 4) (d : Payload),
    decode (.codec 0b0100 (x.setWidth 32) t l d) = .ok (.encSc (x.setWidth 32) t) ∧
    decode (.codec 0b0101 (x.setWidth 32) t l d) = .ok (.encDc (x.setWidth 32) t) ∧
    ∃ e : Payload, Bytes e x 0 0 0 0 0 0 0 ∧
      exec (.encSc (x.setWidth 32) t) s = .next { s with out := [.encoded 1 e] } ∧
      exec (.encDc (x.setWidth 32) t) s = .next { s with out := [.encoded 1 e] }

/-- ENC.SP16 (41_codec.md R150): the two value bytes, `len = 2`, no timestamp. -/
def Obligations.EncodeSetPoint16Layout : Prop :=
  ∀ (x : Half) (v t : Word) (s : State) (l : BitVec 4) (d : Payload),
    (v = x.setWidth 32 ∨ v = x.signExtend 32) →
    decode (.codec 0b0110 v t l d) = .ok (.encSp16 v t) ∧
    ∃ e : Payload, Bytes e (x.extractLsb' 0 8) (x.extractLsb' 8 8) 0 0 0 0 0 0 ∧
      exec (.encSp16 v t) s = .next { s with out := [.encoded 2 e] }

/-- DEC.SI and DEC.DI (41_codec.md R152, R153): `MalformedFrame` exactly when `len ≤ 4`, else state and timestamp. -/
def Obligations.DecodeIndication : Prop :=
  ∀ (len : BitVec 4) (data : Payload) (s : State) (v t : Word), legalLen len = true →
    decode (.codec 0b1000 v t len data) = .ok (.decSi len data) ∧
    decode (.codec 0b1001 v t len data) = .ok (.decDi len data) ∧
    (len.toNat < 5 → ∃ n a b, exec (.decSi len data) s = .next { s with fresh := n, out := [.decoded false a b] } ∧
      exec (.decDi len data) s = .next { s with fresh := n, out := [.decoded false a b] }) ∧
    (5 ≤ len.toNat → ∀ u : State, u = { s with out := [.decoded true ((dataByte data 0).setWidth 32)
          (dataByte data 4 ++ dataByte data 3 ++ dataByte data 2 ++ dataByte data 1)] } →
      exec (.decSi len data) s = .next u ∧ exec (.decDi len data) s = .next u)

/-- DEC.MV16 (41_codec.md R154): `MalformedFrame` exactly when `len ≤ 5`, else the sign-extended value and the
timestamp. -/
def Obligations.DecodeMeasured16 : Prop :=
  ∀ (len : BitVec 4) (data : Payload) (s : State) (v t : Word), legalLen len = true →
    decode (.codec 0b1010 v t len data) = .ok (.decMv16 len data) ∧
    (len.toNat < 6 → ∃ n a b, exec (.decMv16 len data) s = .next { s with fresh := n, out := [.decoded false a b] }) ∧
    (6 ≤ len.toNat → exec (.decMv16 len data) s = .next { s with
        out := [.decoded true ((dataByte data 1 ++ dataByte data 0).signExtend 32)
          (dataByte data 5 ++ dataByte data 4 ++ dataByte data 3 ++ dataByte data 2)] })

/-- DEC.MV32 and DEC.SP32 (41_codec.md R155, R159): `MalformedFrame` exactly when `len ≤ 3`, else the value; the `ts`
output is 0 (R142). -/
def Obligations.DecodeValue32 : Prop :=
  ∀ (len : BitVec 4) (data : Payload) (s : State) (v t : Word), legalLen len = true →
    decode (.codec 0b1011 v t len data) = .ok (.decMv32 len data) ∧
    decode (.codec 0b1111 v t len data) = .ok (.decSp32 len data) ∧
    (len.toNat < 4 → ∃ n a b, exec (.decMv32 len data) s = .next { s with fresh := n, out := [.decoded false a b] } ∧
      exec (.decSp32 len data) s = .next { s with fresh := n, out := [.decoded false a b] }) ∧
    (4 ≤ len.toNat → ∀ u : State, u = { s with out := [.decoded true
          (dataByte data 3 ++ dataByte data 2 ++ dataByte data 1 ++ dataByte data 0) 0] } →
      exec (.decMv32 len data) s = .next u ∧ exec (.decSp32 len data) s = .next u)

/-- DEC.SC and DEC.DC (41_codec.md R156, R157): `MalformedFrame` exactly when `len = 0`, else the state byte. -/
def Obligations.DecodeCommand : Prop :=
  ∀ (len : BitVec 4) (data : Payload) (s : State) (v t : Word), legalLen len = true →
    decode (.codec 0b1100 v t len data) = .ok (.decSc len data) ∧
    decode (.codec 0b1101 v t len data) = .ok (.decDc len data) ∧
    (len = 0 → ∃ n a b, exec (.decSc len data) s = .next { s with fresh := n, out := [.decoded false a b] } ∧
      exec (.decDc len data) s = .next { s with fresh := n, out := [.decoded false a b] }) ∧
    (len ≠ 0 → ∀ u : State, u = { s with out := [.decoded true ((dataByte data 0).setWidth 32) 0] } →
      exec (.decSc len data) s = .next u ∧ exec (.decDc len data) s = .next u)

/-- DEC.SP16 (41_codec.md R158): `MalformedFrame` exactly when `len ≤ 1`, else the sign-extended value. -/
def Obligations.DecodeSetPoint16 : Prop :=
  ∀ (len : BitVec 4) (data : Payload) (s : State) (v t : Word), legalLen len = true →
    decode (.codec 0b1110 v t len data) = .ok (.decSp16 len data) ∧
    (len.toNat < 2 → ∃ n a b, exec (.decSp16 len data) s = .next { s with fresh := n, out := [.decoded false a b] }) ∧
    (2 ≤ len.toNat → exec (.decSp16 len data) s = .next { s with
        out := [.decoded true ((dataByte data 1 ++ dataByte data 0).signExtend 32) 0] })

/-- Inputs of the select that the codec's rules do not speak of, as the MODEL takes them (logs 11 and 12): ENC.c uses the
low bits of its 32-bit value input, DEC.c takes a `len` above 8 as 8. -/
def Obligations.CodecInputsOutsideTheirRange : Prop :=
  ∀ (v t : Word) (len : BitVec 4) (data : Payload) (s : State),
    exec (.encSi v t) s = exec (.encSi ((v.setWidth 8).setWidth 32) t) s ∧
    exec (.encDi v t) s = exec (.encDi ((v.setWidth 8).setWidth 32) t) s ∧
    exec (.encMv16 v t) s = exec (.encMv16 ((v.setWidth 16).setWidth 32) t) s ∧
    exec (.encSc v t) s = exec (.encSc ((v.setWidth 8).setWidth 32) t) s ∧
    exec (.encDc v t) s = exec (.encDc ((v.setWidth 8).setWidth 32) t) s ∧
    exec (.encSp16 v t) s = exec (.encSp16 ((v.setWidth 16).setWidth 32) t) s ∧
    (8 < len.toNat → ∀ c : MsgClass, exec (decodeInstr c len data) s = exec (decodeInstr c 8 data) s)

/-- Decoding an encoded payload gives the value back, and the timestamp for the three classes that carry it
(41_codec.md section 4): on the interface of the two functions, for every value of the class's width. -/
def Obligations.CodecRoundTrip : Prop :=
  ∀ (b : Byte) (h : Half) (v t : Word) (s : State),
    (∃ l d, exec (.encSi (b.setWidth 32) t) s = .next { s with out := [.encoded l d] } ∧
      exec (.decSi l d) s = .next { s with out := [.decoded true (b.setWidth 32) t] }) ∧
    (∃ l d, exec (.encDi (b.setWidth 32) t) s = .next { s with out := [.encoded l d] } ∧
      exec (.decDi l d) s = .next { s with out := [.decoded true (b.setWidth 32) t] }) ∧
    (∃ l d, exec (.encMv16 (h.signExtend 32) t) s = .next { s with out := [.encoded l d] } ∧
      exec (.decMv16 l d) s = .next { s with out := [.decoded true (h.signExtend 32) t] }) ∧
    (∃ l d, exec (.encMv32 v t) s = .next { s with out := [.encoded l d] } ∧
      exec (.decMv32 l d) s = .next { s with out := [.decoded true v 0] }) ∧
    (∃ l d, exec (.encSc (b.setWidth 32) t) s = .next { s with out := [.encoded l d] } ∧
      exec (.decSc l d) s = .next { s with out := [.decoded true (b.setWidth 32) 0] }) ∧
    (∃ l d, exec (.encDc (b.setWidth 32) t) s = .next { s with out := [.encoded l d] } ∧
      exec (.decDc l d) s = .next { s with out := [.decoded true (b.setWidth 32) 0] }) ∧
    (∃ l d, exec (.encSp16 (h.signExtend 32) t) s = .next { s with out := [.encoded l d] } ∧
      exec (.decSp16 l d) s = .next { s with out := [.decoded true (h.signExtend 32) 0] }) ∧
    (∃ l d, exec (.encSp32 v t) s = .next { s with out := [.encoded l d] } ∧
      exec (.decSp32 l d) s = .next { s with out := [.decoded true v 0] })

/-! ### Application writes -/

/-- WR_SI (42_write.md R181) over APPLYWRITE (R180): `BadIndex`; else the cell and its Timestamp, then the frame, or
`BufferFull` with the cell kept. -/
def Obligations.WriteSingleIndication : Prop :=
  (∀ w : BitVec 48, w &&& 0xFF0000000000 = 0x100000000000 →
    decode (.app w) = .ok (.wrSi (w.extractLsb' 32 8) (w.extractLsb' 0 8))) ∧
  ∀ (idx : Index) (x : Byte) (s : State),
    (s.cfg.idSi.length ≤ idx.toNat → exec (.wrSi idx x) s = .next { s with out := [answer .badIndex 0] }) ∧
    (∀ id, s.cfg.idSi[idx.toNat]? = some id → ∀ c : Cells,
      c = { s.cells with si := s.cells.si.set idx.toNat { state := x, ts := s.time } } →
      (s.txq.count = 10 → exec (.wrSi idx x) s = .next { s with cells := c, out := [answer .bufferFull 0] }) ∧
      (s.txq.count ≠ 10 → ∃ (q : Txq) (d : Payload),
        exec (.wrSi idx x) s = .next { s with cells := c, txq := q, out := [answer .ok 0] } ∧
        Bytes d x (byteOf s.time 0) (byteOf s.time 1) (byteOf s.time 2) (byteOf s.time 3) 0 0 0 ∧
        Enqueued { mt := 0, id := id, len := 5, data := d } s.txq q))

/-- WR_DI (42_write.md R182) over APPLYWRITE (R180). -/
def Obligations.WriteDoubleIndication : Prop :=
  (∀ w : BitVec 48, w &&& 0xFF0000000000 = 0x200000000000 →
    decode (.app w) = .ok (.wrDi (w.extractLsb' 32 8) (w.extractLsb' 0 8))) ∧
  ∀ (idx : Index) (x : Byte) (s : State),
    (s.cfg.idDi.length ≤ idx.toNat → exec (.wrDi idx x) s = .next { s with out := [answer .badIndex 0] }) ∧
    (∀ id, s.cfg.idDi[idx.toNat]? = some id → ∀ c : Cells,
      c = { s.cells with di := s.cells.di.set idx.toNat { state := x, ts := s.time } } →
      (s.txq.count = 10 → exec (.wrDi idx x) s = .next { s with cells := c, out := [answer .bufferFull 0] }) ∧
      (s.txq.count ≠ 10 → ∃ (q : Txq) (d : Payload),
        exec (.wrDi idx x) s = .next { s with cells := c, txq := q, out := [answer .ok 0] } ∧
        Bytes d x (byteOf s.time 0) (byteOf s.time 1) (byteOf s.time 2) (byteOf s.time 3) 0 0 0 ∧
        Enqueued { mt := 1, id := id, len := 5, data := d } s.txq q))

/-- WR_MV16 (42_write.md R183) over APPLYWRITE (R180): the operand is truncated, not saturated. -/
def Obligations.WriteMeasured16 : Prop :=
  (∀ w : BitVec 48, w &&& 0xFF0000000000 = 0x300000000000 →
    decode (.app w) = .ok (.wrMv16 (w.extractLsb' 32 8) (w.extractLsb' 0 16))) ∧
  ∀ (idx : Index) (x : Half) (s : State),
    (s.cfg.idMv16.length ≤ idx.toNat → exec (.wrMv16 idx x) s = .next { s with out := [answer .badIndex 0] }) ∧
    (∀ id, s.cfg.idMv16[idx.toNat]? = some id → ∀ c : Cells,
      c = { s.cells with mv16 := s.cells.mv16.set idx.toNat { value := x, ts := s.time } } →
      (s.txq.count = 10 → exec (.wrMv16 idx x) s = .next { s with cells := c, out := [answer .bufferFull 0] }) ∧
      (s.txq.count ≠ 10 → ∃ (q : Txq) (d : Payload),
        exec (.wrMv16 idx x) s = .next { s with cells := c, txq := q, out := [answer .ok 0] } ∧
        Bytes d (x.extractLsb' 0 8) (x.extractLsb' 8 8)
          (byteOf s.time 0) (byteOf s.time 1) (byteOf s.time 2) (byteOf s.time 3) 0 0 ∧
        Enqueued { mt := 2, id := id, len := 6, data := d } s.txq q))

/-- WR_MV32 (42_write.md R184) over APPLYWRITE (R180): the cell takes the Timestamp, the frame does not carry it. -/
def Obligations.WriteMeasured32 : Prop :=
  (∀ w : BitVec 48, w &&& 0xFF0000000000 = 0x400000000000 →
    decode (.app w) = .ok (.wrMv32 (w.extractLsb' 32 8) (w.extractLsb' 0 32))) ∧
  ∀ (idx : Index) (x : Word) (s : State),
    (s.cfg.idMv32.length ≤ idx.toNat → exec (.wrMv32 idx x) s = .next { s with out := [answer .badIndex 0] }) ∧
    (∀ id, s.cfg.idMv32[idx.toNat]? = some id → ∀ c : Cells,
      c = { s.cells with mv32 := s.cells.mv32.set idx.toNat { value := x, ts := s.time } } →
      (s.txq.count = 10 → exec (.wrMv32 idx x) s = .next { s with cells := c, out := [answer .bufferFull 0] }) ∧
      (s.txq.count ≠ 10 → ∃ (q : Txq) (d : Payload),
        exec (.wrMv32 idx x) s = .next { s with cells := c, txq := q, out := [answer .ok 0] } ∧
        Bytes d (byteOf x 0) (byteOf x 1) (byteOf x 2) (byteOf x 3) 0 0 0 0 ∧
        Enqueued { mt := 3, id := id, len := 4, data := d } s.txq q))

/-- Who may change an object cell (42_write.md R188): outbound cells only their own write, each only the addressed one;
inbound cells only the dispatch of a frame of their class inside REFRESH. -/
def Obligations.CellsChangeOnlyByTheirOperation : Prop :=
  ∀ (i : Instr) (s t : State), exec i s = .next t →
    (∀ k : Nat, t.cells.si[k]? ≠ s.cells.si[k]? → ∃ idx x, i = .wrSi idx x ∧ idx.toNat = k) ∧
    (∀ k : Nat, t.cells.di[k]? ≠ s.cells.di[k]? → ∃ idx x, i = .wrDi idx x ∧ idx.toNat = k) ∧
    (∀ k : Nat, t.cells.mv16[k]? ≠ s.cells.mv16[k]? → ∃ idx x, i = .wrMv16 idx x ∧ idx.toNat = k) ∧
    (∀ k : Nat, t.cells.mv32[k]? ≠ s.cells.mv32[k]? → ∃ idx x, i = .wrMv32 idx x ∧ idx.toNat = k) ∧
    (∀ k : Nat, t.cells.sc[k]? ≠ s.cells.sc[k]? →
      i = .refresh ∧ s.rxsOcc = true ∧ s.rxsFrame.mt = 4 ∧ s.cfg.idSc[k]? = some s.rxsFrame.id) ∧
    (∀ k : Nat, t.cells.dc[k]? ≠ s.cells.dc[k]? →
      i = .refresh ∧ s.rxsOcc = true ∧ s.rxsFrame.mt = 5 ∧ s.cfg.idDc[k]? = some s.rxsFrame.id) ∧
    (∀ k : Nat, t.cells.sp16[k]? ≠ s.cells.sp16[k]? →
      i = .refresh ∧ s.rxsOcc = true ∧ s.rxsFrame.mt = 6 ∧ s.cfg.idSp16[k]? = some s.rxsFrame.id) ∧
    (∀ k : Nat, t.cells.sp32[k]? ≠ s.cells.sp32[k]? →
      i = .refresh ∧ s.rxsOcc = true ∧ s.rxsFrame.mt = 7 ∧ s.cfg.idSp32[k]? = some s.rxsFrame.id)

/-- Timestamp correctness (42_write.md section 3), for the objects of all four outbound classes: after a write to an object
at `t2`, and any events that are neither a reset nor another write to it, the object's Timestamp is `t2` and its State or
Value the written one, whether or not the frame was enqueued. -/
def Obligations.TimestampIsThatOfTheLastWrite : Prop :=
  LastWriteStays Config.idSi .wrSi Cells.si (fun x t => { state := x, ts := t }) ∧
  LastWriteStays Config.idDi .wrDi Cells.di (fun x t => { state := x, ts := t }) ∧
  LastWriteStays Config.idMv16 .wrMv16 Cells.mv16 (fun x t => { value := x, ts := t }) ∧
  LastWriteStays Config.idMv32 .wrMv32 Cells.mv32 (fun x t => { value := x, ts := t })

/-! ### The inbound path -/

/-- RX (43_rx_dispatch.md R201): the slot takes the frame, `len` clamped, or the new frame is dropped and counted. -/
def Obligations.ReceiveStoresOrCounts : Prop :=
  (∀ w : BitVec 79, decode (.rx w) = .ok (.rx
    { mt := w.extractLsb' 76 3, id := w.extractLsb' 68 8, len := w.extractLsb' 64 4, data := w.extractLsb' 0 64 })) ∧
  ∀ (f : Frame) (s : State),
    (s.rxsOcc = true →
      exec (.rx f) s = .next { s with cnt := { s.cnt with inovf := s.cnt.inovf + 1 }, out := [] }) ∧
    (s.rxsOcc = false →
      ∀ g : Frame, g = { mt := f.mt, id := f.id, len := (if f.len.toNat ≤ 8 then f.len else 8), data := f.data } →
        exec (.rx f) s = .next { s with rxsOcc := true, rxsFrame := g, out := [] })

/-- A frame of each class that arrives, named by its wire identifier, as `RX.c` (30_encoding.md sections 3 and 8; that the
FRAME.c patterns are met as arrivals is the model's reading, log 8). -/
def Obligations.FrameOfEachClassArrives : Prop :=
  ∀ (id : Identifier) (len : BitVec 4) (data : Payload) (s : State),
    (∀ w : BitVec 11, ∃ i, decode (.wid w len data) = .ok i ∧
      exec i s = .next (arrived s (w.extractLsb' 8 3) (w.extractLsb' 0 8) len data)) ∧
    exec (.frameSi id len data) s = .next (arrived s 0 id len data) ∧
    exec (.frameDi id len data) s = .next (arrived s 1 id len data) ∧
    exec (.frameMv16 id len data) s = .next (arrived s 2 id len data) ∧
    exec (.frameMv32 id len data) s = .next (arrived s 3 id len data) ∧
    exec (.frameSc id len data) s = .next (arrived s 4 id len data) ∧
    exec (.frameDc id len data) s = .next (arrived s 5 id len data) ∧
    exec (.frameSp16 id len data) s = .next (arrived s 6 id len data) ∧
    exec (.frameSp32 id len data) s = .next (arrived s 7 id len data)

/-- Between two REFRESHes the first received frame is kept and each further one only counts (43_rx_dispatch.md
section 1). -/
def Obligations.FurtherFramesAreOnlyCounted : Prop :=
  ∀ (fs : List Frame) (s : State), s.rxsOcc = true →
    ∃ answers t, perform (fs.map Instr.rx) s = some (answers, t) ∧
      t.cnt.inovf = s.cnt.inovf + BitVec.ofNat 32 fs.length ∧
      t.rxsFrame = s.rxsFrame ∧ t.rxsOcc = true ∧ t.txq = s.txq ∧ t.inflight = s.inflight ∧ t.cells = s.cells ∧
      t.cnt.unmatched = s.cnt.unmatched ∧ t.cnt.malformed = s.cnt.malformed

/-- `UnmatchedFrame` (43_rx_dispatch.md R209): a frame of an outbound class, or of an inbound class with an Identifier its
table does not hold, frees the slot, counts, and changes nothing else. -/
def Obligations.UnmatchedFrameIsCountedAndDiscarded : Prop :=
  ∀ s : State, s.rxsOcc = true →
    (s.rxsFrame.mt.toNat < 4 ∨ s.rxsFrame.id ∉ idTable s.cfg (MsgClass.ofCode s.rxsFrame.mt)) →
      exec .refresh s = .next (refreshed s s.cells { s.cnt with unmatched := s.cnt.unmatched + 1 } [])

/-- `MalformedFrame` (43_rx_dispatch.md R210): a matched frame shorter than its class's width is discarded and counted. -/
def Obligations.MalformedFrameIsCountedAndDiscarded : Prop :=
  ∀ s : State, s.rxsOcc = true → 4 ≤ s.rxsFrame.mt.toNat →
    s.rxsFrame.id ∈ idTable s.cfg (MsgClass.ofCode s.rxsFrame.mt) →
    s.rxsFrame.len.toNat < requiredWidth (MsgClass.ofCode s.rxsFrame.mt) →
      exec .refresh s = .next (refreshed s s.cells { s.cnt with malformed := s.cnt.malformed + 1 } [])

/-- A matched, well-formed frame updates exactly the cell of the first matching object and emits exactly one callback
event with the value stored (43_rx_dispatch.md R211, R212), for each of the four inbound classes. -/
def Obligations.DeliveredFrameUpdatesOneCellAndCallsBack : Prop :=
  ∀ (s : State) (i : Nat) (d : Payload), s.rxsOcc = true → d = s.rxsFrame.data →
    (s.rxsFrame.mt = 4 → FirstMatch s.cfg.idSc s.rxsFrame.id i → 1 ≤ s.rxsFrame.len.toNat →
      exec .refresh s = .next (refreshed s { s.cells with sc := s.cells.sc.set i (dataByte d 0) } s.cnt
        [event 4 i ((dataByte d 0).setWidth 32)])) ∧
    (s.rxsFrame.mt = 5 → FirstMatch s.cfg.idDc s.rxsFrame.id i → 1 ≤ s.rxsFrame.len.toNat →
      exec .refresh s = .next (refreshed s { s.cells with dc := s.cells.dc.set i (dataByte d 0) } s.cnt
        [event 5 i ((dataByte d 0).setWidth 32)])) ∧
    (s.rxsFrame.mt = 6 → FirstMatch s.cfg.idSp16 s.rxsFrame.id i → 2 ≤ s.rxsFrame.len.toNat →
      exec .refresh s = .next (refreshed s
        { s.cells with sp16 := s.cells.sp16.set i (dataByte d 1 ++ dataByte d 0) } s.cnt
        [event 6 i ((dataByte d 1 ++ dataByte d 0).signExtend 32)])) ∧
    (s.rxsFrame.mt = 7 → FirstMatch s.cfg.idSp32 s.rxsFrame.id i → 4 ≤ s.rxsFrame.len.toNat →
      exec .refresh s = .next (refreshed s
        { s.cells with sp32 := s.cells.sp32.set i (dataByte d 3 ++ dataByte d 2 ++ dataByte d 1 ++ dataByte d 0) } s.cnt
        [event 7 i (dataByte d 3 ++ dataByte d 2 ++ dataByte d 1 ++ dataByte d 0)]))

/-- The layout of `CB43` (30_encoding.md R92), and class isolation (43_rx_dispatch.md section 3), under a well-formed
configuration: a callback event carries the class of the frame in the slot and the one object of that class with the frame's
Identifier. -/
def Obligations.CallbackIsOfTheFramesOwnClass : Prop :=
  (∀ c : Callback, c.word.extractLsb' 40 3 = c.cls ∧ c.word.extractLsb' 32 8 = c.idx ∧
    c.word.extractLsb' 0 32 = c.value) ∧
  ∀ (s t : State) (c : Callback), s.cfg.wellFormed = true → exec .refresh s = .next t → .cb c ∈ t.out →
    s.rxsOcc = true ∧ c.cls = s.rxsFrame.mt ∧ 4 ≤ c.cls.toNat ∧
    ∀ j, (idTable s.cfg (MsgClass.ofCode s.rxsFrame.mt))[j]? = some s.rxsFrame.id ↔ j = c.idx.toNat

/-- An operation counts under at most one counter and there by one: unmatched and malformed frames only in a REFRESH that
drains the slot, overflow only at an arrival that finds it occupied (43_rx_dispatch.md section 3, 60_exceptions.md
section 2). -/
def Obligations.AtMostOneCauseIsCounted : Prop :=
  ∀ (i : Instr) (s t : State), exec i s = .next t →
    t.cnt = s.cnt ∨
    (t.cnt = { s.cnt with unmatched := s.cnt.unmatched + 1 } ∧ i = .refresh ∧ s.rxsOcc = true) ∨
    (t.cnt = { s.cnt with malformed := s.cnt.malformed + 1 } ∧ i = .refresh ∧ s.rxsOcc = true) ∨
    (t.cnt = { s.cnt with inovf := s.cnt.inovf + 1 } ∧ isArrival i ∧ s.rxsOcc = true)

/-! ### REFRESH and SENDCOMPLETE -/

/-- REFRESH with a free handoff slot (44_refresh_tx.md sections 1 and 3): the head frame is presented unless the buffer is
empty or the head is with the driver; accepted it is in flight, rejected nothing changes; the answer is `OK`. -/
def Obligations.RefreshPresentsTheHeadFrame : Prop :=
  (∀ w : BitVec 48, w &&& 0xFF0000000000 = 0x500000000000 → decode (.app w) = .ok .refresh) ∧
  ∀ s : State, s.rxsOcc = false →
    ((s.txq.count = 0 ∨ s.inflight = true) → exec .refresh s = .next { s with out := [answer .ok 0] }) ∧
    (s.txq.count ≠ 0 → s.inflight = false → ∀ g, s.txq.peek = some g → ∀ p : TxPresentation,
      p = { wid := g.mt ++ g.id, frameKind := .data, idKind := .standard, len := g.len, data := g.data } →
        (s.txAccept = true →
          exec .refresh s = .next { s with inflight := true, out := [.tx p, answer .ok 0] }) ∧
        (s.txAccept = false → exec .refresh s = .next { s with out := [.tx p, answer .ok 0] }))

/-- The outputs of a REFRESH, in order (44_refresh_tx.md section 1): at most one callback event, then at most one
presentation, then `OK`; the slot is free after it. -/
def Obligations.RefreshOutputsInOrder : Prop :=
  ∀ s : State, ∃ t events txs, exec .refresh s = .next t ∧ t.rxsOcc = false ∧
    t.out = events ++ txs ++ [answer .ok 0] ∧
    (events = [] ∨ ∃ c, events = [.cb c] ∧ s.rxsOcc = true) ∧
    (txs = [] ∨ ∃ p, txs = [.tx p] ∧ s.inflight = false ∧ s.txq.count ≠ 0) ∧
    t.txq = s.txq ∧ t.cnt.inovf = s.cnt.inovf

/-- SENDCOMPLETE (44_refresh_tx.md R236, R237): commits the frame in flight; with nothing in flight it is ignored, whether
the buffer is empty or not. -/
def Obligations.SendCompleteCommitsTheFrameInFlight : Prop :=
  decode (.sc 1) = .ok .sendComplete ∧
  ∀ s : State,
    (s.inflight = true → s.txq.count ≠ 0 → ∃ q : Txq,
      exec .sendComplete s = .next { s with txq := q, inflight := false, out := [] } ∧ HeadRemoved s.txq q) ∧
    (s.inflight = false → exec .sendComplete s = .next { s with out := [] })

/-- Delivery order (44_refresh_tx.md section 3): while a frame is in flight, whatever events occur that are no
`SENDCOMPLETE`, bare COMMIT or reset, it stays at the head and no frame is presented. -/
def Obligations.NothingIsPresentedWhileAFrameIsInFlight : Prop :=
  ∀ (n : Nat) (s : State), s.txq.inv → s.inflight = true → 0 < s.txq.count.val →
    (∀ e ∈ s.pending.take (n + 1), e.frees = false) →
      ∃ t, Sys2Proof.core.run (n + 1) s = .next t ∧ t.inflight = true ∧ t.txq.head = s.txq.head ∧
        t.txq.peek = s.txq.peek ∧ s.txq.count.val ≤ t.txq.count.val ∧ ∀ p, .tx p ∉ t.out

/-! ### Status operations -/

/-- NOP (45_status.md R251). -/
def Obligations.NopAnswersOk : Prop :=
  (∀ w : BitVec 48, w &&& 0xFF0000000000 = 0 → decode (.app w) = .ok .nop) ∧
  ∀ s : State, exec .nop s = .next { s with out := [answer .ok 0] }

/-- RD_STAT (45_status.md R252): the read data bit by bit. -/
def Obligations.StatusWordShowsTheFlags : Prop :=
  (∀ w : BitVec 48, w &&& 0xFF0000000000 = 0x600000000000 → decode (.app w) = .ok .rdStat) ∧
  ∀ s : State, ∃ r : Word, exec .rdStat s = .next { s with out := [answer .ok r] } ∧
    (r.extractLsb' 0 4).toNat = s.txq.count.val ∧
    (r.getLsbD 4 = true ↔ s.txq.count = 0) ∧ (r.getLsbD 5 = true ↔ s.txq.count = 10) ∧
    r.getLsbD 6 = s.inflight ∧ r.getLsbD 7 = s.rxsOcc ∧
    (r.extractLsb' 8 4).toNat = s.txq.head.val ∧ (r.extractLsb' 12 4).toNat = s.txq.tail.val ∧
    r.extractLsb' 16 16 = 0

/-- RD_CNT (45_status.md R253): the selected counter, not cleared, or `BadIndex`. -/
def Obligations.CounterReadOrBadIndex : Prop :=
  (∀ w : BitVec 48, w &&& 0xFF0000000000 = 0x700000000000 → decode (.app w) = .ok (.rdCnt (w.extractLsb' 32 8))) ∧
  ∀ (sel : Index) (s : State),
    (sel = 0 → exec (.rdCnt sel) s = .next { s with out := [answer .ok s.cnt.unmatched] }) ∧
    (sel = 1 → exec (.rdCnt sel) s = .next { s with out := [answer .ok s.cnt.inovf] }) ∧
    (sel = 2 → exec (.rdCnt sel) s = .next { s with out := [answer .ok s.cnt.malformed] }) ∧
    (3 ≤ sel.toNat → exec (.rdCnt sel) s = .next { s with out := [answer .badIndex 0] })

/-- The status operations may be placed anywhere in a run without changing what any other operation does
(45_status.md section 1). -/
def Obligations.StatusOperationsAreTransparent : Prop :=
  ∀ (i : Instr) (s : State), isStatus i → ∃ t, exec i s = .next t ∧ ∀ j : Instr, exec j t = exec j s

/-! ### Whole-machine rules -/

/-- Which operation writes which register, row by row of the access matrix (10_state.md section 7, 20_memory.md section 5),
the bare selects included. -/
def Obligations.RegistersHaveTheirWriters : Prop :=
  ∀ (i : Instr) (s t : State), exec i s = .next t →
    (t.txq.head ≠ s.txq.head → i = .sendComplete ∨ i = .commit) ∧
    (t.txq.tail ≠ s.txq.tail → isWrite i ∨ ∃ f, i = .enq f) ∧
    (t.txq.slots ≠ s.txq.slots → isWrite i ∨ ∃ f, i = .enq f) ∧
    (t.txq.count ≠ s.txq.count → isWrite i ∨ (∃ f, i = .enq f) ∨ i = .sendComplete ∨ i = .commit) ∧
    (t.inflight ≠ s.inflight → i = .refresh ∨ i = .sendComplete) ∧
    (s.rxsOcc = false → t.rxsOcc = true → isArrival i) ∧
    (s.rxsOcc = true → t.rxsOcc = false → i = .refresh) ∧
    (t.rxsFrame ≠ s.rxsFrame → isArrival i ∧ s.rxsOcc = false) ∧
    ((t.cells.si ≠ s.cells.si ∨ t.cells.di ≠ s.cells.di ∨ t.cells.mv16 ≠ s.cells.mv16 ∨ t.cells.mv32 ≠ s.cells.mv32) →
      isWrite i) ∧
    ((t.cells.sc ≠ s.cells.sc ∨ t.cells.dc ≠ s.cells.dc ∨ t.cells.sp16 ≠ s.cells.sp16 ∨ t.cells.sp32 ≠ s.cells.sp32) →
      i = .refresh) ∧
    ((t.cnt.unmatched ≠ s.cnt.unmatched ∨ t.cnt.malformed ≠ s.cnt.malformed) → i = .refresh) ∧
    (t.cnt.inovf ≠ s.cnt.inovf → isArrival i) ∧
    (t.time = s.time ∧ t.txAccept = s.txAccept ∧ t.pending = s.pending ∧ t.cfg = s.cfg)

/-- Which operation samples which input (10_state.md section 6, 44_refresh_tx.md section 1): only the four writes depend on
`TIME`, only a REFRESH that presents a frame depends on `tx_accept`; every other operation does the same at any levels. -/
def Obligations.InputsAreSampledOnlyByTheirOperations : Prop :=
  ∀ (i : Instr) (s t : State), exec i s = .next t →
    (¬ isWrite i → ∀ time, exec i { s with time := time } = .next { t with time := time }) ∧
    ((i ≠ .refresh ∨ s.txq.count = 0 ∨ s.inflight = true) →
      ∀ accept, exec i { s with txAccept := accept } = .next { t with txAccept := accept })

/-- A reception and an application write, next to each other, leave the same state in either order
(44_refresh_tx.md section 3). -/
def Obligations.ReceptionAndWriteCommute : Prop :=
  ∀ (f : Frame) (i : Instr) (s : State), isWrite i →
    ∃ a b u v, exec (.rx f) s = .next a ∧ exec i a = .next u ∧ exec i s = .next b ∧ exec (.rx f) b = .next v ∧
      v = { u with out := [] } ∧ u.out = b.out ∧ u.inflight = s.inflight ∧ u.txq.head = s.txq.head

/-- The invariant of Safety.lean holds after reset, under every configuration. Its two clauses on legal lengths speak of the
ten slots and RXS_FRAME, which 10_state.md section 8 leaves unspecified after reset: they hold by the model's zero frames,
the model's choice (log 5). -/
def Obligations.InvariantHoldsAtReset : Prop :=
  ∀ c : Config, (State.resetWith c).Inv

/-- Every step keeps the invariant of Safety.lean: the ring, the in-flight frame, legal lengths in every frame register,
queued frames that have the class and length of writes, tables of their sizes, events to come at the CORE's ports only (a
premise, log 7). For a reset event (70_reset_and_hazards.md section 1) the legal lengths of the slots and RXS_FRAME rest on
the model's zero frames, the model's choice (log 5). -/
def Obligations.EveryStepKeepsTheInvariant : Prop :=
  ∀ s t : State, s.Inv → step s = .next t → t.Inv

/-- What reaches the driver (30_encoding.md section 3): every presentation is a standard data frame of an outbound class
with the class's own length, it is the head frame, and it was not with the driver already. From the invariant, whose clause
on the events to come is the premise of log 7. -/
def Obligations.PresentationsAreOutboundDataFrames : Prop :=
  ∀ (s t : State) (p : TxPresentation), s.Inv → step s = .next t → .tx p ∈ t.out →
    p.frameKind = .data ∧ p.idKind = .standard ∧ (p.wid.extractLsb' 8 3).toNat < 4 ∧
    p.len.toNat = requiredWidth (MsgClass.ofCode (p.wid.extractLsb' 8 3)) ∧ s.inflight = false ∧
    ∃ g, s.txq.peek = some g ∧ p.wid = g.mt ++ g.id ∧ p.len = g.len ∧ p.data = g.data
end

