-- ==== Sys2Proof/Laws/Decode.lean ====
section
/-! SUPPORT. Fields of concatenated words: the slices of the words that the encoder builds. -/

namespace Sys2Proof

/-- A slice that lies in the lower part of a concatenation. -/
theorem slice_append_low {a b : Nat} (x : BitVec a) (y : BitVec b) (k n : Nat) (h : k + n ≤ b) :
    (x ++ y).extractLsb' k n = y.extractLsb' k n := by
  apply BitVec.eq_of_getLsbD_eq
  intro i hi
  have : k + i < b := by omega
  simp [BitVec.getLsbD_append, hi, this]

/-- A slice that lies in the upper part of a concatenation. -/
theorem slice_append_high {a b : Nat} (x : BitVec a) (y : BitVec b) (k n : Nat) :
    (x ++ y).extractLsb' (b + k) n = x.extractLsb' k n := by
  apply BitVec.eq_of_getLsbD_eq
  intro i hi
  have h : ¬ b + k + i < b := by omega
  have e : b + k + i - b = k + i := by omega
  simp [BitVec.getLsbD_append, hi, h, e]

/-- The whole of a word is its own slice. -/
theorem slice_all {a : Nat} (x : BitVec a) : x.extractLsb' 0 a = x := by
  apply BitVec.eq_of_getLsbD_eq
  intro i hi
  simp [hi]

/-- A narrow value widened, then narrowed again. -/
theorem slice_setWidth {a b : Nat} (x : BitVec a) (h : a ≤ b) : (x.setWidth b).extractLsb' 0 a = x := by
  apply BitVec.eq_of_getLsbD_eq
  intro i hi
  have : i < b := by omega
  simp [hi, this]

/-! ### The frame word (30_encoding.md R88) -/

theorem Frame.word_data (f : Frame) : f.word.extractLsb' 0 64 = f.data :=
  (slice_append_low (f.mt ++ f.id ++ f.len) f.data 0 64 (by omega)).trans (slice_all _)

theorem Frame.word_len (f : Frame) : f.word.extractLsb' 64 4 = f.len :=
  (slice_append_high (f.mt ++ f.id ++ f.len) f.data 0 4).trans
    ((slice_append_low (f.mt ++ f.id) f.len 0 4 (by omega)).trans (slice_all _))

theorem Frame.word_id (f : Frame) : f.word.extractLsb' 68 8 = f.id :=
  (slice_append_high (f.mt ++ f.id ++ f.len) f.data 4 8).trans
    ((slice_append_high (f.mt ++ f.id) f.len 0 8).trans
      ((slice_append_low f.mt f.id 0 8 (by omega)).trans (slice_all _)))

theorem Frame.word_mt (f : Frame) : f.word.extractLsb' 76 3 = f.mt :=
  (slice_append_high (f.mt ++ f.id ++ f.len) f.data 12 3).trans
    ((slice_append_high (f.mt ++ f.id) f.len 8 3).trans
      ((slice_append_high f.mt f.id 0 3).trans (slice_all _)))

/-! ### The command word (30_encoding.md R81) -/

/-- The command word of `appWord`, its width spelled 48. -/
def appBits (op : BitVec 4) (idx : Index) (operand : Word) : BitVec 48 := op ++ (0 : BitVec 4) ++ idx ++ operand

theorem appWord_eq (op : BitVec 4) (idx : Index) (operand : Word) : appWord op idx operand = .app (appBits op idx operand) :=
  rfl

theorem appBits_op (op : BitVec 4) (idx : Index) (operand : Word) : (appBits op idx operand).extractLsb' 44 4 = op :=
  (slice_append_high (op ++ (0 : BitVec 4) ++ idx) operand 12 4).trans
    ((slice_append_high (op ++ (0 : BitVec 4)) idx 4 4).trans
      ((slice_append_high op (0 : BitVec 4) 0 4).trans (slice_all _)))

theorem appBits_z (op : BitVec 4) (idx : Index) (operand : Word) : (appBits op idx operand).extractLsb' 40 4 = 0 :=
  (slice_append_high (op ++ (0 : BitVec 4) ++ idx) operand 8 4).trans
    ((slice_append_high (op ++ (0 : BitVec 4)) idx 0 4).trans
      ((slice_append_low op (0 : BitVec 4) 0 4 (by omega)).trans (slice_all _)))

theorem appBits_idx (op : BitVec 4) (idx : Index) (operand : Word) : (appBits op idx operand).extractLsb' 32 8 = idx :=
  (slice_append_high (op ++ (0 : BitVec 4) ++ idx) operand 0 8).trans
    ((slice_append_low (op ++ (0 : BitVec 4)) idx 0 8 (by omega)).trans (slice_all _))

theorem appBits_operand (op : BitVec 4) (idx : Index) (operand : Word) (n : Nat) (h : n ≤ 32) :
    (appBits op idx operand).extractLsb' 0 n = operand.extractLsb' 0 n :=
  slice_append_low (op ++ (0 : BitVec 4) ++ idx) operand 0 n (by omega)

/-! ### Class codes and the selects (30_encoding.md R83, R84, R96) -/

@[simp] theorem MsgClass.ofCode_code (c : MsgClass) : MsgClass.ofCode c.code = c := by cases c <;> rfl

@[simp] theorem MsgClass.code_ofCode (mt : BitVec 3) : (MsgClass.ofCode mt).code = mt := by revert mt; decide

/-- The wire identifier of a class and an Identifier, its width spelled 11. -/
def widBits (c : MsgClass) (id : Identifier) : BitVec 11 := c.code ++ id

theorem widWord_eq (c : MsgClass) (id : Identifier) (len : BitVec 4) (data : Payload) :
    widWord c id len data = .wid (widBits c id) len data := rfl

theorem widBits_mt (c : MsgClass) (id : Identifier) : (widBits c id).extractLsb' 8 3 = c.code :=
  (slice_append_high c.code id 0 3).trans (slice_all _)

theorem widBits_id (c : MsgClass) (id : Identifier) : (widBits c id).extractLsb' 0 8 = id :=
  (slice_append_low c.code id 0 8 (by omega)).trans (slice_all _)

end Sys2Proof
end

