-- ==== Sys2Proof/Laws/State.lean ====
section
/-! SUPPORT. One lemma per field of State per named update, so that no later proof unfolds a record update; what raising
each cause does. -/

namespace Sys2Proof.Machine

/-! ### start -/

@[simp] theorem State.start_txq (s : State) : s.start.txq = s.txq := rfl
@[simp] theorem State.start_inflight (s : State) : s.start.inflight = s.inflight := rfl
@[simp] theorem State.start_rxsOcc (s : State) : s.start.rxsOcc = s.rxsOcc := rfl
@[simp] theorem State.start_rxsFrame (s : State) : s.start.rxsFrame = s.rxsFrame := rfl
@[simp] theorem State.start_cells (s : State) : s.start.cells = s.cells := rfl
@[simp] theorem State.start_cnt (s : State) : s.start.cnt = s.cnt := rfl
@[simp] theorem State.start_cfg (s : State) : s.start.cfg = s.cfg := rfl
@[simp] theorem State.start_out (s : State) : s.start.out = [] := rfl
@[simp] theorem State.start_time (s : State) : s.start.time = s.time := rfl
@[simp] theorem State.start_txAccept (s : State) : s.start.txAccept = s.txAccept := rfl
@[simp] theorem State.start_pending (s : State) : s.start.pending = s.pending := rfl
@[simp] theorem State.start_fresh (s : State) : s.start.fresh = s.fresh := rfl

/-! ### emit -/

@[simp] theorem State.emit_txq (o : Output) (s : State) : (s.emit o).txq = s.txq := rfl
@[simp] theorem State.emit_inflight (o : Output) (s : State) : (s.emit o).inflight = s.inflight := rfl
@[simp] theorem State.emit_rxsOcc (o : Output) (s : State) : (s.emit o).rxsOcc = s.rxsOcc := rfl
@[simp] theorem State.emit_rxsFrame (o : Output) (s : State) : (s.emit o).rxsFrame = s.rxsFrame := rfl
@[simp] theorem State.emit_cells (o : Output) (s : State) : (s.emit o).cells = s.cells := rfl
@[simp] theorem State.emit_cnt (o : Output) (s : State) : (s.emit o).cnt = s.cnt := rfl
@[simp] theorem State.emit_cfg (o : Output) (s : State) : (s.emit o).cfg = s.cfg := rfl
@[simp] theorem State.emit_out (o : Output) (s : State) : (s.emit o).out = s.out ++ [o] := rfl
@[simp] theorem State.emit_time (o : Output) (s : State) : (s.emit o).time = s.time := rfl
@[simp] theorem State.emit_txAccept (o : Output) (s : State) : (s.emit o).txAccept = s.txAccept := rfl
@[simp] theorem State.emit_pending (o : Output) (s : State) : (s.emit o).pending = s.pending := rfl
@[simp] theorem State.emit_fresh (o : Output) (s : State) : (s.emit o).fresh = s.fresh := rfl

/-! ### result -/

@[simp] theorem State.result_txq (e : Cause) (v : Word) (s : State) : (s.result e v).txq = s.txq := rfl
@[simp] theorem State.result_inflight (e : Cause) (v : Word) (s : State) : (s.result e v).inflight = s.inflight := rfl
@[simp] theorem State.result_rxsOcc (e : Cause) (v : Word) (s : State) : (s.result e v).rxsOcc = s.rxsOcc := rfl
@[simp] theorem State.result_rxsFrame (e : Cause) (v : Word) (s : State) : (s.result e v).rxsFrame = s.rxsFrame := rfl
@[simp] theorem State.result_cells (e : Cause) (v : Word) (s : State) : (s.result e v).cells = s.cells := rfl
@[simp] theorem State.result_cnt (e : Cause) (v : Word) (s : State) : (s.result e v).cnt = s.cnt := rfl
@[simp] theorem State.result_cfg (e : Cause) (v : Word) (s : State) : (s.result e v).cfg = s.cfg := rfl
@[simp] theorem State.result_out (e : Cause) (v : Word) (s : State) : (s.result e v).out = s.out ++ [.rsp { res := e, rdata := v }] := rfl
@[simp] theorem State.result_time (e : Cause) (v : Word) (s : State) : (s.result e v).time = s.time := rfl
@[simp] theorem State.result_txAccept (e : Cause) (v : Word) (s : State) : (s.result e v).txAccept = s.txAccept := rfl
@[simp] theorem State.result_pending (e : Cause) (v : Word) (s : State) : (s.result e v).pending = s.pending := rfl
@[simp] theorem State.result_fresh (e : Cause) (v : Word) (s : State) : (s.result e v).fresh = s.fresh := rfl

/-! ### take -/

@[simp] theorem State.take_txq (t : Word) (a : Bool) (r : List Stimulus) (s : State) : (s.take t a r).txq = s.txq := rfl
@[simp] theorem State.take_inflight (t : Word) (a : Bool) (r : List Stimulus) (s : State) : (s.take t a r).inflight = s.inflight := rfl
@[simp] theorem State.take_rxsOcc (t : Word) (a : Bool) (r : List Stimulus) (s : State) : (s.take t a r).rxsOcc = s.rxsOcc := rfl
@[simp] theorem State.take_rxsFrame (t : Word) (a : Bool) (r : List Stimulus) (s : State) : (s.take t a r).rxsFrame = s.rxsFrame := rfl
@[simp] theorem State.take_cells (t : Word) (a : Bool) (r : List Stimulus) (s : State) : (s.take t a r).cells = s.cells := rfl
@[simp] theorem State.take_cnt (t : Word) (a : Bool) (r : List Stimulus) (s : State) : (s.take t a r).cnt = s.cnt := rfl
@[simp] theorem State.take_cfg (t : Word) (a : Bool) (r : List Stimulus) (s : State) : (s.take t a r).cfg = s.cfg := rfl
@[simp] theorem State.take_out (t : Word) (a : Bool) (r : List Stimulus) (s : State) : (s.take t a r).out = s.out := rfl
@[simp] theorem State.take_time (t : Word) (a : Bool) (r : List Stimulus) (s : State) : (s.take t a r).time = t := rfl
@[simp] theorem State.take_txAccept (t : Word) (a : Bool) (r : List Stimulus) (s : State) : (s.take t a r).txAccept = a := rfl
@[simp] theorem State.take_pending (t : Word) (a : Bool) (r : List Stimulus) (s : State) : (s.take t a r).pending = r := rfl
@[simp] theorem State.take_fresh (t : Word) (a : Bool) (r : List Stimulus) (s : State) : (s.take t a r).fresh = s.fresh := rfl

/-! ### callback -/

@[simp] theorem State.callback_txq (c : MsgClass) (i : Nat) (v : Word) (s : State) : (s.callback c i v).txq = s.txq := rfl
@[simp] theorem State.callback_inflight (c : MsgClass) (i : Nat) (v : Word) (s : State) : (s.callback c i v).inflight = s.inflight := rfl
@[simp] theorem State.callback_rxsOcc (c : MsgClass) (i : Nat) (v : Word) (s : State) : (s.callback c i v).rxsOcc = s.rxsOcc := rfl
@[simp] theorem State.callback_rxsFrame (c : MsgClass) (i : Nat) (v : Word) (s : State) : (s.callback c i v).rxsFrame = s.rxsFrame := rfl
@[simp] theorem State.callback_cells (c : MsgClass) (i : Nat) (v : Word) (s : State) : (s.callback c i v).cells = s.cells := rfl
@[simp] theorem State.callback_cnt (c : MsgClass) (i : Nat) (v : Word) (s : State) : (s.callback c i v).cnt = s.cnt := rfl
@[simp] theorem State.callback_cfg (c : MsgClass) (i : Nat) (v : Word) (s : State) : (s.callback c i v).cfg = s.cfg := rfl
@[simp] theorem State.callback_out (c : MsgClass) (i : Nat) (v : Word) (s : State) : (s.callback c i v).out = s.out ++ [.cb { cls := c.code, idx := BitVec.ofNat 8 i, value := v }] := rfl
@[simp] theorem State.callback_time (c : MsgClass) (i : Nat) (v : Word) (s : State) : (s.callback c i v).time = s.time := rfl
@[simp] theorem State.callback_txAccept (c : MsgClass) (i : Nat) (v : Word) (s : State) : (s.callback c i v).txAccept = s.txAccept := rfl
@[simp] theorem State.callback_pending (c : MsgClass) (i : Nat) (v : Word) (s : State) : (s.callback c i v).pending = s.pending := rfl
@[simp] theorem State.callback_fresh (c : MsgClass) (i : Nat) (v : Word) (s : State) : (s.callback c i v).fresh = s.fresh := rfl

/-! ### applyReset -/

@[simp] theorem State.applyReset_txq (s : State) : s.applyReset.txq = Txq.reset := rfl
@[simp] theorem State.applyReset_inflight (s : State) : s.applyReset.inflight = false := rfl
@[simp] theorem State.applyReset_rxsOcc (s : State) : s.applyReset.rxsOcc = false := rfl
@[simp] theorem State.applyReset_rxsFrame (s : State) : s.applyReset.rxsFrame = blankFrame := rfl
@[simp] theorem State.applyReset_cells (s : State) : s.applyReset.cells = Cells.reset s.cfg := rfl
@[simp] theorem State.applyReset_cnt (s : State) : s.applyReset.cnt = Counters.reset := rfl
@[simp] theorem State.applyReset_cfg (s : State) : s.applyReset.cfg = s.cfg := rfl
@[simp] theorem State.applyReset_out (s : State) : s.applyReset.out = [] := rfl
@[simp] theorem State.applyReset_time (s : State) : s.applyReset.time = s.time := rfl
@[simp] theorem State.applyReset_txAccept (s : State) : s.applyReset.txAccept = s.txAccept := rfl
@[simp] theorem State.applyReset_pending (s : State) : s.applyReset.pending = s.pending := rfl
@[simp] theorem State.applyReset_fresh (s : State) : s.applyReset.fresh = s.fresh := rfl

/-! ### setTxq -/

@[simp] theorem State.setTxq_txq (q : Txq) (s : State) : (s.setTxq q).txq = q := rfl
@[simp] theorem State.setTxq_inflight (q : Txq) (s : State) : (s.setTxq q).inflight = s.inflight := rfl
@[simp] theorem State.setTxq_rxsOcc (q : Txq) (s : State) : (s.setTxq q).rxsOcc = s.rxsOcc := rfl
@[simp] theorem State.setTxq_rxsFrame (q : Txq) (s : State) : (s.setTxq q).rxsFrame = s.rxsFrame := rfl
@[simp] theorem State.setTxq_cells (q : Txq) (s : State) : (s.setTxq q).cells = s.cells := rfl
@[simp] theorem State.setTxq_cnt (q : Txq) (s : State) : (s.setTxq q).cnt = s.cnt := rfl
@[simp] theorem State.setTxq_cfg (q : Txq) (s : State) : (s.setTxq q).cfg = s.cfg := rfl
@[simp] theorem State.setTxq_out (q : Txq) (s : State) : (s.setTxq q).out = s.out := rfl
@[simp] theorem State.setTxq_time (q : Txq) (s : State) : (s.setTxq q).time = s.time := rfl
@[simp] theorem State.setTxq_txAccept (q : Txq) (s : State) : (s.setTxq q).txAccept = s.txAccept := rfl
@[simp] theorem State.setTxq_pending (q : Txq) (s : State) : (s.setTxq q).pending = s.pending := rfl
@[simp] theorem State.setTxq_fresh (q : Txq) (s : State) : (s.setTxq q).fresh = s.fresh := rfl

/-! ### setInflight -/

@[simp] theorem State.setInflight_txq (b : Bool) (s : State) : (s.setInflight b).txq = s.txq := rfl
@[simp] theorem State.setInflight_inflight (b : Bool) (s : State) : (s.setInflight b).inflight = b := rfl
@[simp] theorem State.setInflight_rxsOcc (b : Bool) (s : State) : (s.setInflight b).rxsOcc = s.rxsOcc := rfl
@[simp] theorem State.setInflight_rxsFrame (b : Bool) (s : State) : (s.setInflight b).rxsFrame = s.rxsFrame := rfl
@[simp] theorem State.setInflight_cells (b : Bool) (s : State) : (s.setInflight b).cells = s.cells := rfl
@[simp] theorem State.setInflight_cnt (b : Bool) (s : State) : (s.setInflight b).cnt = s.cnt := rfl
@[simp] theorem State.setInflight_cfg (b : Bool) (s : State) : (s.setInflight b).cfg = s.cfg := rfl
@[simp] theorem State.setInflight_out (b : Bool) (s : State) : (s.setInflight b).out = s.out := rfl
@[simp] theorem State.setInflight_time (b : Bool) (s : State) : (s.setInflight b).time = s.time := rfl
@[simp] theorem State.setInflight_txAccept (b : Bool) (s : State) : (s.setInflight b).txAccept = s.txAccept := rfl
@[simp] theorem State.setInflight_pending (b : Bool) (s : State) : (s.setInflight b).pending = s.pending := rfl
@[simp] theorem State.setInflight_fresh (b : Bool) (s : State) : (s.setInflight b).fresh = s.fresh := rfl

/-! ### fillSlot -/

@[simp] theorem State.fillSlot_txq (f : Frame) (s : State) : (s.fillSlot f).txq = s.txq := rfl
@[simp] theorem State.fillSlot_inflight (f : Frame) (s : State) : (s.fillSlot f).inflight = s.inflight := rfl
@[simp] theorem State.fillSlot_rxsOcc (f : Frame) (s : State) : (s.fillSlot f).rxsOcc = true := rfl
@[simp] theorem State.fillSlot_rxsFrame (f : Frame) (s : State) : (s.fillSlot f).rxsFrame = f := rfl
@[simp] theorem State.fillSlot_cells (f : Frame) (s : State) : (s.fillSlot f).cells = s.cells := rfl
@[simp] theorem State.fillSlot_cnt (f : Frame) (s : State) : (s.fillSlot f).cnt = s.cnt := rfl
@[simp] theorem State.fillSlot_cfg (f : Frame) (s : State) : (s.fillSlot f).cfg = s.cfg := rfl
@[simp] theorem State.fillSlot_out (f : Frame) (s : State) : (s.fillSlot f).out = s.out := rfl
@[simp] theorem State.fillSlot_time (f : Frame) (s : State) : (s.fillSlot f).time = s.time := rfl
@[simp] theorem State.fillSlot_txAccept (f : Frame) (s : State) : (s.fillSlot f).txAccept = s.txAccept := rfl
@[simp] theorem State.fillSlot_pending (f : Frame) (s : State) : (s.fillSlot f).pending = s.pending := rfl
@[simp] theorem State.fillSlot_fresh (f : Frame) (s : State) : (s.fillSlot f).fresh = s.fresh := rfl

/-! ### freeSlot -/

@[simp] theorem State.freeSlot_txq (s : State) : s.freeSlot.txq = s.txq := rfl
@[simp] theorem State.freeSlot_inflight (s : State) : s.freeSlot.inflight = s.inflight := rfl
@[simp] theorem State.freeSlot_rxsOcc (s : State) : s.freeSlot.rxsOcc = false := rfl
@[simp] theorem State.freeSlot_rxsFrame (s : State) : s.freeSlot.rxsFrame = s.rxsFrame := rfl
@[simp] theorem State.freeSlot_cells (s : State) : s.freeSlot.cells = s.cells := rfl
@[simp] theorem State.freeSlot_cnt (s : State) : s.freeSlot.cnt = s.cnt := rfl
@[simp] theorem State.freeSlot_cfg (s : State) : s.freeSlot.cfg = s.cfg := rfl
@[simp] theorem State.freeSlot_out (s : State) : s.freeSlot.out = s.out := rfl
@[simp] theorem State.freeSlot_time (s : State) : s.freeSlot.time = s.time := rfl
@[simp] theorem State.freeSlot_txAccept (s : State) : s.freeSlot.txAccept = s.txAccept := rfl
@[simp] theorem State.freeSlot_pending (s : State) : s.freeSlot.pending = s.pending := rfl
@[simp] theorem State.freeSlot_fresh (s : State) : s.freeSlot.fresh = s.fresh := rfl

/-! ### setCnt -/

@[simp] theorem State.setCnt_txq (c : Counters) (s : State) : (s.setCnt c).txq = s.txq := rfl
@[simp] theorem State.setCnt_inflight (c : Counters) (s : State) : (s.setCnt c).inflight = s.inflight := rfl
@[simp] theorem State.setCnt_rxsOcc (c : Counters) (s : State) : (s.setCnt c).rxsOcc = s.rxsOcc := rfl
@[simp] theorem State.setCnt_rxsFrame (c : Counters) (s : State) : (s.setCnt c).rxsFrame = s.rxsFrame := rfl
@[simp] theorem State.setCnt_cells (c : Counters) (s : State) : (s.setCnt c).cells = s.cells := rfl
@[simp] theorem State.setCnt_cnt (c : Counters) (s : State) : (s.setCnt c).cnt = c := rfl
@[simp] theorem State.setCnt_cfg (c : Counters) (s : State) : (s.setCnt c).cfg = s.cfg := rfl
@[simp] theorem State.setCnt_out (c : Counters) (s : State) : (s.setCnt c).out = s.out := rfl
@[simp] theorem State.setCnt_time (c : Counters) (s : State) : (s.setCnt c).time = s.time := rfl
@[simp] theorem State.setCnt_txAccept (c : Counters) (s : State) : (s.setCnt c).txAccept = s.txAccept := rfl
@[simp] theorem State.setCnt_pending (c : Counters) (s : State) : (s.setCnt c).pending = s.pending := rfl
@[simp] theorem State.setCnt_fresh (c : Counters) (s : State) : (s.setCnt c).fresh = s.fresh := rfl

/-! ### useFree -/

@[simp] theorem State.useFree_txq (s : State) : s.useFree.txq = s.txq := rfl
@[simp] theorem State.useFree_inflight (s : State) : s.useFree.inflight = s.inflight := rfl
@[simp] theorem State.useFree_rxsOcc (s : State) : s.useFree.rxsOcc = s.rxsOcc := rfl
@[simp] theorem State.useFree_rxsFrame (s : State) : s.useFree.rxsFrame = s.rxsFrame := rfl
@[simp] theorem State.useFree_cells (s : State) : s.useFree.cells = s.cells := rfl
@[simp] theorem State.useFree_cnt (s : State) : s.useFree.cnt = s.cnt := rfl
@[simp] theorem State.useFree_cfg (s : State) : s.useFree.cfg = s.cfg := rfl
@[simp] theorem State.useFree_out (s : State) : s.useFree.out = s.out := rfl
@[simp] theorem State.useFree_time (s : State) : s.useFree.time = s.time := rfl
@[simp] theorem State.useFree_txAccept (s : State) : s.useFree.txAccept = s.txAccept := rfl
@[simp] theorem State.useFree_pending (s : State) : s.useFree.pending = s.pending := rfl
@[simp] theorem State.useFree_fresh (s : State) : s.useFree.fresh = s.fresh + 1 := rfl

/-! ### setSi -/

@[simp] theorem State.setSi_txq (i : Nat) (v : IndCell) (s : State) : (s.setSi i v).txq = s.txq := rfl
@[simp] theorem State.setSi_inflight (i : Nat) (v : IndCell) (s : State) : (s.setSi i v).inflight = s.inflight := rfl
@[simp] theorem State.setSi_rxsOcc (i : Nat) (v : IndCell) (s : State) : (s.setSi i v).rxsOcc = s.rxsOcc := rfl
@[simp] theorem State.setSi_rxsFrame (i : Nat) (v : IndCell) (s : State) : (s.setSi i v).rxsFrame = s.rxsFrame := rfl
@[simp] theorem State.setSi_cells (i : Nat) (v : IndCell) (s : State) : (s.setSi i v).cells = { s.cells with si := s.cells.si.set i v } := rfl
@[simp] theorem State.setSi_cnt (i : Nat) (v : IndCell) (s : State) : (s.setSi i v).cnt = s.cnt := rfl
@[simp] theorem State.setSi_cfg (i : Nat) (v : IndCell) (s : State) : (s.setSi i v).cfg = s.cfg := rfl
@[simp] theorem State.setSi_out (i : Nat) (v : IndCell) (s : State) : (s.setSi i v).out = s.out := rfl
@[simp] theorem State.setSi_time (i : Nat) (v : IndCell) (s : State) : (s.setSi i v).time = s.time := rfl
@[simp] theorem State.setSi_txAccept (i : Nat) (v : IndCell) (s : State) : (s.setSi i v).txAccept = s.txAccept := rfl
@[simp] theorem State.setSi_pending (i : Nat) (v : IndCell) (s : State) : (s.setSi i v).pending = s.pending := rfl
@[simp] theorem State.setSi_fresh (i : Nat) (v : IndCell) (s : State) : (s.setSi i v).fresh = s.fresh := rfl

/-! ### setDi -/

@[simp] theorem State.setDi_txq (i : Nat) (v : IndCell) (s : State) : (s.setDi i v).txq = s.txq := rfl
@[simp] theorem State.setDi_inflight (i : Nat) (v : IndCell) (s : State) : (s.setDi i v).inflight = s.inflight := rfl
@[simp] theorem State.setDi_rxsOcc (i : Nat) (v : IndCell) (s : State) : (s.setDi i v).rxsOcc = s.rxsOcc := rfl
@[simp] theorem State.setDi_rxsFrame (i : Nat) (v : IndCell) (s : State) : (s.setDi i v).rxsFrame = s.rxsFrame := rfl
@[simp] theorem State.setDi_cells (i : Nat) (v : IndCell) (s : State) : (s.setDi i v).cells = { s.cells with di := s.cells.di.set i v } := rfl
@[simp] theorem State.setDi_cnt (i : Nat) (v : IndCell) (s : State) : (s.setDi i v).cnt = s.cnt := rfl
@[simp] theorem State.setDi_cfg (i : Nat) (v : IndCell) (s : State) : (s.setDi i v).cfg = s.cfg := rfl
@[simp] theorem State.setDi_out (i : Nat) (v : IndCell) (s : State) : (s.setDi i v).out = s.out := rfl
@[simp] theorem State.setDi_time (i : Nat) (v : IndCell) (s : State) : (s.setDi i v).time = s.time := rfl
@[simp] theorem State.setDi_txAccept (i : Nat) (v : IndCell) (s : State) : (s.setDi i v).txAccept = s.txAccept := rfl
@[simp] theorem State.setDi_pending (i : Nat) (v : IndCell) (s : State) : (s.setDi i v).pending = s.pending := rfl
@[simp] theorem State.setDi_fresh (i : Nat) (v : IndCell) (s : State) : (s.setDi i v).fresh = s.fresh := rfl

/-! ### setMv16 -/

@[simp] theorem State.setMv16_txq (i : Nat) (v : Mv16Cell) (s : State) : (s.setMv16 i v).txq = s.txq := rfl
@[simp] theorem State.setMv16_inflight (i : Nat) (v : Mv16Cell) (s : State) : (s.setMv16 i v).inflight = s.inflight := rfl
@[simp] theorem State.setMv16_rxsOcc (i : Nat) (v : Mv16Cell) (s : State) : (s.setMv16 i v).rxsOcc = s.rxsOcc := rfl
@[simp] theorem State.setMv16_rxsFrame (i : Nat) (v : Mv16Cell) (s : State) : (s.setMv16 i v).rxsFrame = s.rxsFrame := rfl
@[simp] theorem State.setMv16_cells (i : Nat) (v : Mv16Cell) (s : State) : (s.setMv16 i v).cells = { s.cells with mv16 := s.cells.mv16.set i v } := rfl
@[simp] theorem State.setMv16_cnt (i : Nat) (v : Mv16Cell) (s : State) : (s.setMv16 i v).cnt = s.cnt := rfl
@[simp] theorem State.setMv16_cfg (i : Nat) (v : Mv16Cell) (s : State) : (s.setMv16 i v).cfg = s.cfg := rfl
@[simp] theorem State.setMv16_out (i : Nat) (v : Mv16Cell) (s : State) : (s.setMv16 i v).out = s.out := rfl
@[simp] theorem State.setMv16_time (i : Nat) (v : Mv16Cell) (s : State) : (s.setMv16 i v).time = s.time := rfl
@[simp] theorem State.setMv16_txAccept (i : Nat) (v : Mv16Cell) (s : State) : (s.setMv16 i v).txAccept = s.txAccept := rfl
@[simp] theorem State.setMv16_pending (i : Nat) (v : Mv16Cell) (s : State) : (s.setMv16 i v).pending = s.pending := rfl
@[simp] theorem State.setMv16_fresh (i : Nat) (v : Mv16Cell) (s : State) : (s.setMv16 i v).fresh = s.fresh := rfl

/-! ### setMv32 -/

@[simp] theorem State.setMv32_txq (i : Nat) (v : Mv32Cell) (s : State) : (s.setMv32 i v).txq = s.txq := rfl
@[simp] theorem State.setMv32_inflight (i : Nat) (v : Mv32Cell) (s : State) : (s.setMv32 i v).inflight = s.inflight := rfl
@[simp] theorem State.setMv32_rxsOcc (i : Nat) (v : Mv32Cell) (s : State) : (s.setMv32 i v).rxsOcc = s.rxsOcc := rfl
@[simp] theorem State.setMv32_rxsFrame (i : Nat) (v : Mv32Cell) (s : State) : (s.setMv32 i v).rxsFrame = s.rxsFrame := rfl
@[simp] theorem State.setMv32_cells (i : Nat) (v : Mv32Cell) (s : State) : (s.setMv32 i v).cells = { s.cells with mv32 := s.cells.mv32.set i v } := rfl
@[simp] theorem State.setMv32_cnt (i : Nat) (v : Mv32Cell) (s : State) : (s.setMv32 i v).cnt = s.cnt := rfl
@[simp] theorem State.setMv32_cfg (i : Nat) (v : Mv32Cell) (s : State) : (s.setMv32 i v).cfg = s.cfg := rfl
@[simp] theorem State.setMv32_out (i : Nat) (v : Mv32Cell) (s : State) : (s.setMv32 i v).out = s.out := rfl
@[simp] theorem State.setMv32_time (i : Nat) (v : Mv32Cell) (s : State) : (s.setMv32 i v).time = s.time := rfl
@[simp] theorem State.setMv32_txAccept (i : Nat) (v : Mv32Cell) (s : State) : (s.setMv32 i v).txAccept = s.txAccept := rfl
@[simp] theorem State.setMv32_pending (i : Nat) (v : Mv32Cell) (s : State) : (s.setMv32 i v).pending = s.pending := rfl
@[simp] theorem State.setMv32_fresh (i : Nat) (v : Mv32Cell) (s : State) : (s.setMv32 i v).fresh = s.fresh := rfl

/-! ### setSc -/

@[simp] theorem State.setSc_txq (i : Nat) (v : Byte) (s : State) : (s.setSc i v).txq = s.txq := rfl
@[simp] theorem State.setSc_inflight (i : Nat) (v : Byte) (s : State) : (s.setSc i v).inflight = s.inflight := rfl
@[simp] theorem State.setSc_rxsOcc (i : Nat) (v : Byte) (s : State) : (s.setSc i v).rxsOcc = s.rxsOcc := rfl
@[simp] theorem State.setSc_rxsFrame (i : Nat) (v : Byte) (s : State) : (s.setSc i v).rxsFrame = s.rxsFrame := rfl
@[simp] theorem State.setSc_cells (i : Nat) (v : Byte) (s : State) : (s.setSc i v).cells = { s.cells with sc := s.cells.sc.set i v } := rfl
@[simp] theorem State.setSc_cnt (i : Nat) (v : Byte) (s : State) : (s.setSc i v).cnt = s.cnt := rfl
@[simp] theorem State.setSc_cfg (i : Nat) (v : Byte) (s : State) : (s.setSc i v).cfg = s.cfg := rfl
@[simp] theorem State.setSc_out (i : Nat) (v : Byte) (s : State) : (s.setSc i v).out = s.out := rfl
@[simp] theorem State.setSc_time (i : Nat) (v : Byte) (s : State) : (s.setSc i v).time = s.time := rfl
@[simp] theorem State.setSc_txAccept (i : Nat) (v : Byte) (s : State) : (s.setSc i v).txAccept = s.txAccept := rfl
@[simp] theorem State.setSc_pending (i : Nat) (v : Byte) (s : State) : (s.setSc i v).pending = s.pending := rfl
@[simp] theorem State.setSc_fresh (i : Nat) (v : Byte) (s : State) : (s.setSc i v).fresh = s.fresh := rfl

/-! ### setDc -/

@[simp] theorem State.setDc_txq (i : Nat) (v : Byte) (s : State) : (s.setDc i v).txq = s.txq := rfl
@[simp] theorem State.setDc_inflight (i : Nat) (v : Byte) (s : State) : (s.setDc i v).inflight = s.inflight := rfl
@[simp] theorem State.setDc_rxsOcc (i : Nat) (v : Byte) (s : State) : (s.setDc i v).rxsOcc = s.rxsOcc := rfl
@[simp] theorem State.setDc_rxsFrame (i : Nat) (v : Byte) (s : State) : (s.setDc i v).rxsFrame = s.rxsFrame := rfl
@[simp] theorem State.setDc_cells (i : Nat) (v : Byte) (s : State) : (s.setDc i v).cells = { s.cells with dc := s.cells.dc.set i v } := rfl
@[simp] theorem State.setDc_cnt (i : Nat) (v : Byte) (s : State) : (s.setDc i v).cnt = s.cnt := rfl
@[simp] theorem State.setDc_cfg (i : Nat) (v : Byte) (s : State) : (s.setDc i v).cfg = s.cfg := rfl
@[simp] theorem State.setDc_out (i : Nat) (v : Byte) (s : State) : (s.setDc i v).out = s.out := rfl
@[simp] theorem State.setDc_time (i : Nat) (v : Byte) (s : State) : (s.setDc i v).time = s.time := rfl
@[simp] theorem State.setDc_txAccept (i : Nat) (v : Byte) (s : State) : (s.setDc i v).txAccept = s.txAccept := rfl
@[simp] theorem State.setDc_pending (i : Nat) (v : Byte) (s : State) : (s.setDc i v).pending = s.pending := rfl
@[simp] theorem State.setDc_fresh (i : Nat) (v : Byte) (s : State) : (s.setDc i v).fresh = s.fresh := rfl

/-! ### setSp16 -/

@[simp] theorem State.setSp16_txq (i : Nat) (v : Half) (s : State) : (s.setSp16 i v).txq = s.txq := rfl
@[simp] theorem State.setSp16_inflight (i : Nat) (v : Half) (s : State) : (s.setSp16 i v).inflight = s.inflight := rfl
@[simp] theorem State.setSp16_rxsOcc (i : Nat) (v : Half) (s : State) : (s.setSp16 i v).rxsOcc = s.rxsOcc := rfl
@[simp] theorem State.setSp16_rxsFrame (i : Nat) (v : Half) (s : State) : (s.setSp16 i v).rxsFrame = s.rxsFrame := rfl
@[simp] theorem State.setSp16_cells (i : Nat) (v : Half) (s : State) : (s.setSp16 i v).cells = { s.cells with sp16 := s.cells.sp16.set i v } := rfl
@[simp] theorem State.setSp16_cnt (i : Nat) (v : Half) (s : State) : (s.setSp16 i v).cnt = s.cnt := rfl
@[simp] theorem State.setSp16_cfg (i : Nat) (v : Half) (s : State) : (s.setSp16 i v).cfg = s.cfg := rfl
@[simp] theorem State.setSp16_out (i : Nat) (v : Half) (s : State) : (s.setSp16 i v).out = s.out := rfl
@[simp] theorem State.setSp16_time (i : Nat) (v : Half) (s : State) : (s.setSp16 i v).time = s.time := rfl
@[simp] theorem State.setSp16_txAccept (i : Nat) (v : Half) (s : State) : (s.setSp16 i v).txAccept = s.txAccept := rfl
@[simp] theorem State.setSp16_pending (i : Nat) (v : Half) (s : State) : (s.setSp16 i v).pending = s.pending := rfl
@[simp] theorem State.setSp16_fresh (i : Nat) (v : Half) (s : State) : (s.setSp16 i v).fresh = s.fresh := rfl

/-! ### setSp32 -/

@[simp] theorem State.setSp32_txq (i : Nat) (v : Word) (s : State) : (s.setSp32 i v).txq = s.txq := rfl
@[simp] theorem State.setSp32_inflight (i : Nat) (v : Word) (s : State) : (s.setSp32 i v).inflight = s.inflight := rfl
@[simp] theorem State.setSp32_rxsOcc (i : Nat) (v : Word) (s : State) : (s.setSp32 i v).rxsOcc = s.rxsOcc := rfl
@[simp] theorem State.setSp32_rxsFrame (i : Nat) (v : Word) (s : State) : (s.setSp32 i v).rxsFrame = s.rxsFrame := rfl
@[simp] theorem State.setSp32_cells (i : Nat) (v : Word) (s : State) : (s.setSp32 i v).cells = { s.cells with sp32 := s.cells.sp32.set i v } := rfl
@[simp] theorem State.setSp32_cnt (i : Nat) (v : Word) (s : State) : (s.setSp32 i v).cnt = s.cnt := rfl
@[simp] theorem State.setSp32_cfg (i : Nat) (v : Word) (s : State) : (s.setSp32 i v).cfg = s.cfg := rfl
@[simp] theorem State.setSp32_out (i : Nat) (v : Word) (s : State) : (s.setSp32 i v).out = s.out := rfl
@[simp] theorem State.setSp32_time (i : Nat) (v : Word) (s : State) : (s.setSp32 i v).time = s.time := rfl
@[simp] theorem State.setSp32_txAccept (i : Nat) (v : Word) (s : State) : (s.setSp32 i v).txAccept = s.txAccept := rfl
@[simp] theorem State.setSp32_pending (i : Nat) (v : Word) (s : State) : (s.setSp32 i v).pending = s.pending := rfl
@[simp] theorem State.setSp32_fresh (i : Nat) (v : Word) (s : State) : (s.setSp32 i v).fresh = s.fresh := rfl

/-! ### Raising a cause (60_exceptions.md R260) -/

@[simp] theorem State.raise_ok (s : State) : s.raise .ok = s.result .ok 0 := rfl
@[simp] theorem State.raise_bufferFull (s : State) : s.raise .bufferFull = s.result .bufferFull 0 := rfl
@[simp] theorem State.raise_badIndex (s : State) : s.raise .badIndex = s.result .badIndex 0 := rfl
@[simp] theorem State.raise_badOp (s : State) : s.raise .badOp = s.result .badOp 0 := rfl
@[simp] theorem State.raise_transmitRejected (s : State) : s.raise .transmitRejected = s := rfl
@[simp] theorem State.raise_malformedFrame (s : State) :
    s.raise .malformedFrame = s.setCnt { s.cnt with malformed := s.cnt.malformed + 1 } := rfl
@[simp] theorem State.raise_unmatchedFrame (s : State) :
    s.raise .unmatchedFrame = s.setCnt { s.cnt with unmatched := s.cnt.unmatched + 1 } := rfl
@[simp] theorem State.raise_inboundOverflow (s : State) :
    s.raise .inboundOverflow = s.setCnt { s.cnt with inovf := s.cnt.inovf + 1 } := rfl

/-- No cause touches anything but the counters and the outputs (60_exceptions.md R260, R267). -/
theorem State.raise_frame (e : Cause) (s : State) :
    ∃ c o, s.raise e = { s with cnt := c, out := o } := by
  cases e <;> exact ⟨_, _, rfl⟩

end Sys2Proof.Machine
end

