-- ==== Sys2Proof/Laws/Txq.lean ====
section
/-! SUPPORT. What the three ring primitives can do, each said once, and that they keep the ring invariant
(10_state.md R26) and the legal frame lengths. -/

namespace Sys2Proof.Machine

theorem nextSlot_val (i : Fin 10) : (nextSlot i).val = (i.val + 1) % 10 := rfl

/-- ENQ on a full buffer (40_txq.md R121). -/
theorem Txq.enq_full {q : Txq} (f : Frame) (h : q.count.val = 10) : q.enq f = (q, false) := by
  simp [Txq.enq, h]

/-- ENQ on a buffer with room (40_txq.md R121). -/
theorem Txq.enq_room {q : Txq} (f : Frame) (h : q.count.val ≠ 10) :
    (q.enq f).2 = true ∧ (q.enq f).1.slots = q.slots.set q.tail.val f q.tail.isLt ∧
    (q.enq f).1.head = q.head ∧ (q.enq f).1.tail = nextSlot q.tail ∧ (q.enq f).1.count.val = q.count.val + 1 := by
  simp [Txq.enq, h]

/-- ENQ either leaves the buffer or appends. -/
theorem Txq.enq_cases (f : Frame) (q : Txq) :
    (q.count.val = 10 ∧ q.enq f = (q, false)) ∨
    (q.count.val ≠ 10 ∧ (q.enq f).2 = true ∧ (q.enq f).1.slots = q.slots.set q.tail.val f q.tail.isLt ∧
      (q.enq f).1.head = q.head ∧ (q.enq f).1.tail = nextSlot q.tail ∧ (q.enq f).1.count.val = q.count.val + 1) := by
  by_cases h : q.count.val = 10
  · exact .inl ⟨h, Txq.enq_full f h⟩
  · exact .inr ⟨h, Txq.enq_room f h⟩

/-- PEEK (40_txq.md R122). -/
theorem Txq.peek_cases (q : Txq) :
    (q.count.val = 0 ∧ q.peek = none) ∨ (q.count.val ≠ 0 ∧ q.peek = some (q.slots[q.head.val]'q.head.isLt)) := by
  by_cases h : q.count.val = 0
  · exact .inl ⟨h, by simp [Txq.peek, h]⟩
  · exact .inr ⟨h, by simp [Txq.peek, h]⟩

/-- COMMIT (40_txq.md R123). -/
theorem Txq.commit_cases (q : Txq) :
    (q.count.val = 0 ∧ q.commit = q) ∨
    (q.count.val ≠ 0 ∧ q.commit.slots = q.slots ∧ q.commit.head = nextSlot q.head ∧ q.commit.tail = q.tail ∧
      q.commit.count.val + 1 = q.count.val) := by
  by_cases h : q.count.val = 0
  · exact .inl ⟨h, by simp [Txq.commit, h]⟩
  · exact .inr ⟨h, by simp [Txq.commit, h], by simp [Txq.commit, h], by simp [Txq.commit, h],
      by simp [Txq.commit, h]; omega⟩

theorem Txq.enq_inv {q : Txq} (f : Frame) (h : q.inv) : (q.enq f).1.inv := by
  rcases Txq.enq_cases f q with ⟨-, he⟩ | ⟨-, -, -, hh, ht, hc⟩
  · rw [he]; exact h
  · simp only [Txq.inv, hh, ht, hc, nextSlot_val] at *; omega

theorem Txq.commit_inv {q : Txq} (h : q.inv) : q.commit.inv := by
  rcases Txq.commit_cases q with ⟨-, he⟩ | ⟨-, -, hh, ht, hc⟩
  · rw [he]; exact h
  · simp only [Txq.inv, hh, ht, nextSlot_val] at *; omega

/-- A legal frame enqueued keeps every slot legal (30_encoding.md R87). -/
theorem Txq.enq_slotLens {q : Txq} {f : Frame} (hf : legalLen f.len = true)
    (h : ∀ i : Fin 10, legalLen (q.slots[i.val]'i.isLt).len = true) (i : Fin 10) :
    legalLen ((q.enq f).1.slots[i.val]'i.isLt).len = true := by
  rcases Txq.enq_cases f q with ⟨-, he⟩ | ⟨-, -, hs, -⟩
  · simp only [he]; exact h i
  · simp only [hs, Vector.getElem_set]
    split
    · exact hf
    · exact h i

theorem Txq.commit_slots (q : Txq) : q.commit.slots = q.slots := by
  rcases Txq.commit_cases q with ⟨-, he⟩ | ⟨-, hs, -⟩
  · rw [he]
  · exact hs

/-- A slot of the live window is not the one ENQ writes (40_txq.md R121): it keeps its frame. -/
theorem Txq.enq_slotAt_live {q : Txq} (f : Frame) (h : q.inv) {k : Nat} (hk : k < q.count.val) :
    (q.enq f).1.slotAt k = q.slotAt k := by
  rcases Txq.enq_cases f q with ⟨-, he⟩ | ⟨hne, -, hs, hh, -⟩
  · rw [he]
  · have hc := q.count.isLt
    have hd := q.head.isLt
    simp only [Txq.slotAt, hs, hh, Vector.getElem_set]
    rw [if_neg]
    simp only [Txq.inv] at h
    omega

/-- The slot ENQ writes is the first behind the live window. -/
theorem Txq.enq_slotAt_new {q : Txq} (f : Frame) (h : q.inv) (hne : q.count.val ≠ 10) :
    (q.enq f).1.slotAt q.count.val = f := by
  obtain ⟨-, hs, hh, -⟩ := Txq.enq_room f hne
  simp only [Txq.slotAt, hs, hh, Vector.getElem_set]
  rw [if_pos]
  simpa only [Txq.inv] using h

/-- The head frame is the first of the live window. -/
theorem Txq.slotAt_zero (q : Txq) : q.slotAt 0 = q.slots[q.head.val]'q.head.isLt := by
  have := q.head.isLt
  simp only [Txq.slotAt, Nat.add_zero]
  congr 1
  omega

/-- COMMIT moves the live window on by one. -/
theorem Txq.commit_slotAt {q : Txq} (hne : q.count.val ≠ 0) (k : Nat) : q.commit.slotAt k = q.slotAt (k + 1) := by
  rcases Txq.commit_cases q with ⟨h0, -⟩ | ⟨-, hs, hh, -⟩
  · exact absurd h0 hne
  · simp only [Txq.slotAt, hs, hh, nextSlot_val]
    congr 1
    omega

end Sys2Proof.Machine
end

