-- ==== Sys2Proof/Laws/Ops.lean ====
section
/-! SUPPORT. What each shared operation of the meanings can do, said once: provers cite these instead of unfolding. -/

namespace Sys2Proof.Machine

/-! ### The inbound path -/

/-- The two outcomes of an arrival (43_rx_dispatch.md R201). -/
theorem State.receive_cases (f : Frame) (s : State) :
    (s.rxsOcc = true ∧ s.receive f = s.start.setCnt { s.cnt with inovf := s.cnt.inovf + 1 }) ∨
    (s.rxsOcc = false ∧ s.receive f = s.start.fillSlot (Frame.stored f)) := by
  by_cases h : s.rxsOcc = true
  · exact .inl ⟨h, by simp [State.receive, h, State.start]⟩
  · exact .inr ⟨by simpa using h, by simp [State.receive, h, State.start]⟩

/-- A stored frame has a legal length (30_encoding.md R89). -/
theorem stored_legalLen (f : Frame) : legalLen (Frame.stored f).len = true := by
  simp only [Frame.stored, clampLen, legalLen]
  split
  · rfl
  · simp; omega

/-- An outbound class code has no table to search, an inbound one is one of the four (30_encoding.md R84). -/
theorem inbound_cases (mt : BitVec 3) :
    (inbound mt = false ∧ mt.toNat < 4 ∧
      (MsgClass.ofCode mt = .si ∨ MsgClass.ofCode mt = .di ∨ MsgClass.ofCode mt = .mv16 ∨ MsgClass.ofCode mt = .mv32)) ∨
    (inbound mt = true ∧ ((mt = 4 ∧ MsgClass.ofCode mt = .sc) ∨ (mt = 5 ∧ MsgClass.ofCode mt = .dc) ∨
      (mt = 6 ∧ MsgClass.ofCode mt = .sp16) ∨ (mt = 7 ∧ MsgClass.ofCode mt = .sp32))) := by
  revert mt; decide

/-- The lookup answers the least index with the Identifier (43_rx_dispatch.md R207, R208). -/
theorem lookup_some {c : Config} {k : MsgClass} {id : Identifier} {i : Nat} :
    lookup c k id = some i ↔ (idTable c k)[i]? = some id ∧ ∀ j, j < i → (idTable c k)[j]? ≠ some id := by
  unfold lookup
  rw [List.findIdx?_eq_some_iff_getElem]
  constructor
  · rintro ⟨h, he, hb⟩
    refine ⟨by rw [List.getElem?_eq_getElem h]; simpa using he, fun j hj => ?_⟩
    rw [List.getElem?_eq_getElem (by omega)]
    simpa using hb j hj
  · rintro ⟨he, hb⟩
    obtain ⟨h, he⟩ := List.getElem?_eq_some_iff.1 he
    refine ⟨h, by simpa using he, fun j hj => ?_⟩
    have := hb j hj
    rw [List.getElem?_eq_getElem (by omega)] at this
    simpa using this

/-- The lookup finds nothing exactly when the table does not hold the Identifier (43_rx_dispatch.md R207). -/
theorem lookup_none {c : Config} {k : MsgClass} {id : Identifier} : lookup c k id = none ↔ id ∉ idTable c k := by
  unfold lookup
  rw [List.findIdx?_eq_none_iff]
  constructor
  · intro h hm
    simpa using h id hm
  · intro h x hx
    have : x ≠ id := fun e => h (e ▸ hx)
    simpa using this

/-- Everything a DISPATCH can do (43_rx_dispatch.md R205): count the frame under one of two causes, or update one cell of
the frame's class and emit one event. Nothing but cells, counters and outputs is touched (R216). -/
theorem State.dispatch_cases (f : Frame) (s : State) :
    ((inbound f.mt = false ∨ f.id ∉ idTable s.cfg (MsgClass.ofCode f.mt)) ∧
      s.dispatch f = s.setCnt { s.cnt with unmatched := s.cnt.unmatched + 1 }) ∨
    ∃ i, inbound f.mt = true ∧ lookup s.cfg (MsgClass.ofCode f.mt) f.id = some i ∧
      ((f.len.toNat < requiredWidth (MsgClass.ofCode f.mt) ∧
          s.dispatch f = s.setCnt { s.cnt with malformed := s.cnt.malformed + 1 }) ∨
       (requiredWidth (MsgClass.ofCode f.mt) ≤ f.len.toNat ∧
         ((f.mt = 4 ∧ s.dispatch f = (s.setSc i (memRead f.data 0 1)).callback .sc i (extState (memRead f.data 0 1))) ∨
          (f.mt = 5 ∧ s.dispatch f = (s.setDc i (memRead f.data 0 1)).callback .dc i (extState (memRead f.data 0 1))) ∨
          (f.mt = 6 ∧ s.dispatch f = (s.setSp16 i (memRead f.data 0 2)).callback .sp16 i (extHalf (memRead f.data 0 2))) ∨
          (f.mt = 7 ∧ s.dispatch f = (s.setSp32 i (memRead f.data 0 4)).callback .sp32 i (memRead f.data 0 4))))) := by
  rcases inbound_cases f.mt with ⟨hin, -⟩ | ⟨hin, hcls⟩
  · exact .inl ⟨.inl hin, by simp [State.dispatch, hin]⟩
  · cases hl : lookup s.cfg (MsgClass.ofCode f.mt) f.id with
    | none => exact .inl ⟨.inr (lookup_none.1 hl), by simp [State.dispatch, hin, hl]⟩
    | some i =>
      refine .inr ⟨i, hin, rfl, ?_⟩
      by_cases hw : f.len.toNat < requiredWidth (MsgClass.ofCode f.mt)
      · refine .inl ⟨hw, ?_⟩
        rcases hcls with ⟨-, hc⟩ | ⟨-, hc⟩ | ⟨-, hc⟩ | ⟨-, hc⟩ <;>
          simp only [hc, requiredWidth] at hw hl <;>
          simp [State.dispatch, State.deliver, hin, hl, hc, decCommand, decSetPoint16, decValue32, hw]
      · refine .inr ⟨by omega, ?_⟩
        rcases hcls with ⟨hm, hc⟩ | ⟨hm, hc⟩ | ⟨hm, hc⟩ | ⟨hm, hc⟩ <;>
          simp only [hc, requiredWidth] at hw hl
        · exact .inl ⟨hm, by simp [State.dispatch, State.deliver, hin, hl, hc, decCommand, hw]⟩
        · exact .inr (.inl ⟨hm, by simp [State.dispatch, State.deliver, hin, hl, hc, decCommand, hw]⟩)
        · exact .inr (.inr (.inl ⟨hm, by simp [State.dispatch, State.deliver, hin, hl, hc, decSetPoint16, hw]⟩))
        · exact .inr (.inr (.inr ⟨hm, by simp [State.dispatch, State.deliver, hin, hl, hc, decValue32, hw]⟩))

/-! ### REFRESH -/

/-- The three outcomes of step 2 (44_refresh_tx.md R230). -/
theorem State.present_cases (s : State) :
    ((s.inflight = true ∨ s.txq.peek = none) ∧ s.present = s) ∨
    ∃ g, s.inflight = false ∧ s.txq.peek = some g ∧
      s.present = (s.emit (.tx (TxPresentation.ofFrame g))).setInflight s.txAccept := by
  by_cases h : s.inflight = true
  · exact .inl ⟨.inl h, by simp [State.present, h]⟩
  · cases hp : s.txq.peek with
    | none => exact .inl ⟨.inr rfl, by simp [State.present, hp]⟩
    | some g =>
      have h' : s.inflight = false := by simpa using h
      refine .inr ⟨g, h', rfl, ?_⟩
      cases ha : s.txAccept <;> simp [State.present, hp, h', ha, State.emit, State.setInflight]

/-! ### The writes -/

/-- ENQ and the answer of a write (42_write.md R180). -/
theorem State.enqueueAndAnswer_cases (f : Frame) (s : State) :
    (s.txq.count.val = 10 ∧ s.enqueueAndAnswer f = s.result .bufferFull 0) ∨
    (s.txq.count.val ≠ 10 ∧ s.enqueueAndAnswer f = (s.setTxq (s.txq.enq f).1).result .ok 0) := by
  rcases Txq.enq_cases f s.txq with ⟨h, he⟩ | ⟨h, he, -⟩
  · exact .inl ⟨h, by simp [State.enqueueAndAnswer, he, State.setTxq]⟩
  · exact .inr ⟨h, by simp [State.enqueueAndAnswer, he]⟩

/-- The two outcomes of APPLYWRITE (42_write.md R180). -/
theorem State.applyWrite_cases (c : MsgClass) (idx : Index) (store : State → State) (enc : BitVec 4 × Payload)
    (s : State) :
    ((idTable s.cfg c)[idx.toNat]? = none ∧ s.applyWrite c idx store enc = s.start.result .badIndex 0) ∨
    ∃ id, (idTable s.cfg c)[idx.toNat]? = some id ∧
      s.applyWrite c idx store enc =
        (store s.start).enqueueAndAnswer { mt := c.code, id := id, len := enc.1, data := enc.2 } := by
  cases h : (idTable s.cfg c)[idx.toNat]? with
  | none => exact .inl ⟨rfl, by simp [State.applyWrite, h]⟩
  | some id => exact .inr ⟨id, rfl, by simp [State.applyWrite, h]⟩

end Sys2Proof.Machine
end

