-- ==== Sys2Proof/Laws/Payload.lean ====
section
/-! SUPPORT. Payload fields byte by byte: what MemWrite puts where, what MemRead takes (00_scope.md R15). -/

namespace Sys2Proof.Machine

/-- MemWrite bit by bit: the field's bits inside it, the old bits outside. -/
theorem getLsbD_memWrite (d : Payload) (a n : Nat) (v : BitVec (8 * n)) (j : Nat) (hj : j < 64) (h : a + n ≤ 8) :
    (memWrite d a n v).getLsbD j =
      if 8 * a ≤ j ∧ j < 8 * (a + n) then v.getLsbD (j - 8 * a) else d.getLsbD j := by
  unfold memWrite
  simp only [BitVec.getLsbD_or, BitVec.getLsbD_and, BitVec.getLsbD_not, BitVec.getLsbD_shiftLeft,
    BitVec.getLsbD_setWidth, BitVec.getLsbD_allOnes]
  by_cases h1 : 8 * a ≤ j
  · by_cases h2 : j < 8 * (a + n)
    · have h3 : j - 8 * a < 8 * n := by omega
      have h4 : ¬ j < 8 * a := by omega
      have h5 : j - 8 * a < 64 := by omega
      simp [h1, h2, h3, h4, h5, hj]
    · have h3 : ¬ j - 8 * a < 8 * n := by omega
      have h4 : ¬ j < 8 * a := by omega
      simp [h2, h3, h4, hj, BitVec.getLsbD_of_ge v (j - 8 * a) (by omega)]
  · have h4 : j < 8 * a := by omega
    simp [h1, h4, hj]

/-- A byte of the field MemWrite wrote. -/
theorem dataByte_memWrite_inside (d : Payload) (a n : Nat) (v : BitVec (8 * n)) (i : Nat)
    (h1 : a ≤ i) (h2 : i < a + n) (h : a + n ≤ 8) :
    dataByte (memWrite d a n v) i = v.extractLsb' (8 * (i - a)) 8 := by
  apply BitVec.eq_of_getLsbD_eq
  intro j hj
  simp only [dataByte, BitVec.getLsbD_extractLsb', hj, decide_true, Bool.true_and]
  rw [getLsbD_memWrite d a n v (8 * i + j) (by omega) h, if_pos ⟨by omega, by omega⟩]
  congr 1
  omega

/-- A byte outside the field MemWrite wrote. -/
theorem dataByte_memWrite_outside (d : Payload) (a n : Nat) (v : BitVec (8 * n)) (i : Nat)
    (h1 : i < a ∨ a + n ≤ i) (hi : i < 8) (h : a + n ≤ 8) : dataByte (memWrite d a n v) i = dataByte d i := by
  apply BitVec.eq_of_getLsbD_eq
  intro j hj
  simp only [dataByte, BitVec.getLsbD_extractLsb', hj, decide_true, Bool.true_and]
  rw [getLsbD_memWrite d a n v (8 * i + j) (by omega) h, if_neg (by omega)]

theorem dataByte_zero (i : Nat) : dataByte 0 i = 0 := by simp [dataByte]

/-- MemRead is the field's bytes, the one at the lowest offset least significant (20_memory.md R64). -/
theorem memRead_one (d : Payload) (a : Nat) : memRead d a 1 = dataByte d a := rfl

theorem memRead_two (d : Payload) (a : Nat) : memRead d a 2 = dataByte d (a + 1) ++ dataByte d a := by
  apply BitVec.eq_of_getLsbD_eq
  intro j hj
  simp only [memRead, dataByte, BitVec.getLsbD_extractLsb', BitVec.getLsbD_append]
  by_cases h : j < 8
  · have h16 : j < 16 := hj
    simp [h, h16]
  · have h16 : j < 16 := hj
    have h8 : j - 8 < 8 := by omega
    simp [h, h8, h16]
    congr 1
    omega

theorem memRead_four (d : Payload) (a : Nat) :
    memRead d a 4 = dataByte d (a + 3) ++ dataByte d (a + 2) ++ dataByte d (a + 1) ++ dataByte d a := by
  apply BitVec.eq_of_getLsbD_eq
  intro j hj
  simp only [memRead, dataByte, BitVec.getLsbD_extractLsb', BitVec.getLsbD_append]
  have h32 : j < 32 := hj
  by_cases h1 : j < 8
  · simp [h1, h32]
  · by_cases h2 : j - 8 < 8
    · simp [h1, h2, h32]; congr 1; omega
    · by_cases h3 : j - 8 - 8 < 8
      · simp [h1, h2, h3, h32]; congr 1; omega
      · have h4 : j - 8 - 8 - 8 < 8 := by omega
        simp [h1, h2, h3, h4, h32]; congr 1; omega

/-- MemRead of the field MemWrite wrote gives it back (41_codec.md R160). -/
theorem memRead_memWrite_same (d : Payload) (a n : Nat) (v : BitVec (8 * n)) (h : a + n ≤ 8) :
    memRead (memWrite d a n v) a n = v := by
  apply BitVec.eq_of_getLsbD_eq
  intro j hj
  simp only [memRead, BitVec.getLsbD_extractLsb', hj, decide_true, Bool.true_and]
  rw [getLsbD_memWrite d a n v (8 * a + j) (by omega) h, if_pos ⟨by omega, by omega⟩]
  congr 1
  omega

/-- A MemWrite elsewhere does not change a field. -/
theorem memRead_memWrite_other (d : Payload) (a n b m : Nat) (v : BitVec (8 * n)) (h : a + n ≤ 8) (hb : b + m ≤ 8)
    (ho : b + m ≤ a ∨ a + n ≤ b) : memRead (memWrite d a n v) b m = memRead d b m := by
  apply BitVec.eq_of_getLsbD_eq
  intro j hj
  simp only [memRead, BitVec.getLsbD_extractLsb', hj, decide_true, Bool.true_and]
  rw [getLsbD_memWrite d a n v (8 * b + j) (by omega) h, if_neg (by omega)]

end Sys2Proof.Machine
end

