-- ==== Sys2Proof/Laws/PerInstr.lean ====
section
/-! SUPPORT. Per instruction: the word the encoder builds is presented at the row's port and carries the row's fixed bits
(the `format`, `mask` and `match` of spec/opcode_table.json, written out a second time here). -/

namespace Sys2Proof.Laws.EncodeSelects

/-- The bits of a word that a row's mask selects: `op` and `z` of `APP48`, the class code of `WID11`, the whole of the
one-byte words, none of `FRM79`. -/
def fixedBits : PortWord → BitVec 8
  | .app w => w.extractLsb' 40 8
  | .rx _ => 0
  | .sc w => w.setWidth 8
  | .wid w _ _ => (w.extractLsb' 8 3).setWidth 8
  | .txq sel _ => sel.setWidth 8
  | .codec sel _ _ _ _ => sel.setWidth 8

/-- The row of spec/opcode_table.json: its port and its `match` under its `mask`. -/
def row : Instr → Port × BitVec 8
  | .nop => (.main, 0x00)
  | .wrSi _ _ => (.main, 0x10)
  | .wrDi _ _ => (.main, 0x20)
  | .wrMv16 _ _ => (.main, 0x30)
  | .wrMv32 _ _ => (.main, 0x40)
  | .refresh => (.main, 0x50)
  | .rdStat => (.main, 0x60)
  | .rdCnt _ => (.main, 0x70)
  | .rx _ => (.rx, 0)
  | .sendComplete => (.sc, 1)
  | .enq _ => (.txq, 1)
  | .peek => (.txq, 2)
  | .commit => (.txq, 3)
  | .encSi _ _ => (.codec, 0)
  | .encDi _ _ => (.codec, 1)
  | .encMv16 _ _ => (.codec, 2)
  | .encMv32 _ _ => (.codec, 3)
  | .encSc _ _ => (.codec, 4)
  | .encDc _ _ => (.codec, 5)
  | .encSp16 _ _ => (.codec, 6)
  | .encSp32 _ _ => (.codec, 7)
  | .decSi _ _ => (.codec, 8)
  | .decDi _ _ => (.codec, 9)
  | .decMv16 _ _ => (.codec, 10)
  | .decMv32 _ _ => (.codec, 11)
  | .decSc _ _ => (.codec, 12)
  | .decDc _ _ => (.codec, 13)
  | .decSp16 _ _ => (.codec, 14)
  | .decSp32 _ _ => (.codec, 15)
  | .frameSi _ _ _ => (.rx, 0)
  | .frameDi _ _ _ => (.rx, 1)
  | .frameMv16 _ _ _ => (.rx, 2)
  | .frameMv32 _ _ _ => (.rx, 3)
  | .frameSc _ _ _ => (.rx, 4)
  | .frameDc _ _ _ => (.rx, 5)
  | .frameSp16 _ _ _ => (.rx, 6)
  | .frameSp32 _ _ _ => (.rx, 7)

/-- The encoded word has the row's port and fixed bits. -/
def Statement (i : Instr) : Prop := (encode i).port = (row i).1 ∧ fixedBits (encode i) = (row i).2

/-- The fixed bits of a command word are its operation code and four zeros. -/
theorem app_bits (op : BitVec 4) (idx : Index) (operand : Word) :
    fixedBits (appWord op idx operand) = op ++ (0 : BitVec 4) :=
  (slice_append_high (op ++ (0 : BitVec 4) ++ idx) operand 8 8).trans
    ((slice_append_high (op ++ (0 : BitVec 4)) idx 0 8).trans (slice_all _))

/-- The fixed bits of a wire identifier are its class code. -/
theorem wid_bits (c : MsgClass) (id : Identifier) (len : BitVec 4) (data : Payload) :
    fixedBits (widWord c id len data) = c.code.setWidth 8 :=
  congrArg (BitVec.setWidth 8) (widBits_mt c id)

theorem nop : Statement (.nop) := ⟨rfl, app_bits _ _ _⟩
theorem wrSi (idx : Index) (v : Byte) : Statement (.wrSi idx v) := ⟨rfl, app_bits _ _ _⟩
theorem wrDi (idx : Index) (v : Byte) : Statement (.wrDi idx v) := ⟨rfl, app_bits _ _ _⟩
theorem wrMv16 (idx : Index) (v : Half) : Statement (.wrMv16 idx v) := ⟨rfl, app_bits _ _ _⟩
theorem wrMv32 (idx : Index) (v : Word) : Statement (.wrMv32 idx v) := ⟨rfl, app_bits _ _ _⟩
theorem refresh : Statement (.refresh) := ⟨rfl, app_bits _ _ _⟩
theorem rdStat : Statement (.rdStat) := ⟨rfl, app_bits _ _ _⟩
theorem rdCnt (sel : Index) : Statement (.rdCnt sel) := ⟨rfl, app_bits _ _ _⟩
theorem rx (w : Frame) : Statement (.rx w) := ⟨rfl, rfl⟩
theorem sendComplete : Statement (.sendComplete) := ⟨rfl, rfl⟩
theorem enq (f : Frame) : Statement (.enq f) := ⟨rfl, rfl⟩
theorem peek : Statement (.peek) := ⟨rfl, rfl⟩
theorem commit : Statement (.commit) := ⟨rfl, rfl⟩
theorem encSi (value ts : Word) : Statement (.encSi value ts) := ⟨rfl, rfl⟩
theorem encDi (value ts : Word) : Statement (.encDi value ts) := ⟨rfl, rfl⟩
theorem encMv16 (value ts : Word) : Statement (.encMv16 value ts) := ⟨rfl, rfl⟩
theorem encMv32 (value ts : Word) : Statement (.encMv32 value ts) := ⟨rfl, rfl⟩
theorem encSc (value ts : Word) : Statement (.encSc value ts) := ⟨rfl, rfl⟩
theorem encDc (value ts : Word) : Statement (.encDc value ts) := ⟨rfl, rfl⟩
theorem encSp16 (value ts : Word) : Statement (.encSp16 value ts) := ⟨rfl, rfl⟩
theorem encSp32 (value ts : Word) : Statement (.encSp32 value ts) := ⟨rfl, rfl⟩
theorem decSi (len : BitVec 4) (data : Payload) : Statement (.decSi len data) := ⟨rfl, rfl⟩
theorem decDi (len : BitVec 4) (data : Payload) : Statement (.decDi len data) := ⟨rfl, rfl⟩
theorem decMv16 (len : BitVec 4) (data : Payload) : Statement (.decMv16 len data) := ⟨rfl, rfl⟩
theorem decMv32 (len : BitVec 4) (data : Payload) : Statement (.decMv32 len data) := ⟨rfl, rfl⟩
theorem decSc (len : BitVec 4) (data : Payload) : Statement (.decSc len data) := ⟨rfl, rfl⟩
theorem decDc (len : BitVec 4) (data : Payload) : Statement (.decDc len data) := ⟨rfl, rfl⟩
theorem decSp16 (len : BitVec 4) (data : Payload) : Statement (.decSp16 len data) := ⟨rfl, rfl⟩
theorem decSp32 (len : BitVec 4) (data : Payload) : Statement (.decSp32 len data) := ⟨rfl, rfl⟩
theorem frameSi (id : Identifier) (len : BitVec 4) (data : Payload) : Statement (.frameSi id len data) :=
  ⟨rfl, wid_bits .si id len data⟩
theorem frameDi (id : Identifier) (len : BitVec 4) (data : Payload) : Statement (.frameDi id len data) :=
  ⟨rfl, wid_bits .di id len data⟩
theorem frameMv16 (id : Identifier) (len : BitVec 4) (data : Payload) : Statement (.frameMv16 id len data) :=
  ⟨rfl, wid_bits .mv16 id len data⟩
theorem frameMv32 (id : Identifier) (len : BitVec 4) (data : Payload) : Statement (.frameMv32 id len data) :=
  ⟨rfl, wid_bits .mv32 id len data⟩
theorem frameSc (id : Identifier) (len : BitVec 4) (data : Payload) : Statement (.frameSc id len data) :=
  ⟨rfl, wid_bits .sc id len data⟩
theorem frameDc (id : Identifier) (len : BitVec 4) (data : Payload) : Statement (.frameDc id len data) :=
  ⟨rfl, wid_bits .dc id len data⟩
theorem frameSp16 (id : Identifier) (len : BitVec 4) (data : Payload) : Statement (.frameSp16 id len data) :=
  ⟨rfl, wid_bits .sp16 id len data⟩
theorem frameSp32 (id : Identifier) (len : BitVec 4) (data : Payload) : Statement (.frameSp32 id len data) :=
  ⟨rfl, wid_bits .sp32 id len data⟩

end Sys2Proof.Laws.EncodeSelects
end

