-- ==== Sys2Proof/Laws/Queue.lean ====
section
/-! SUPPORT. The ring buffer as the sequence `Q` of 10_state.md R28: what ENQ, PEEK and COMMIT do to it. -/

namespace Sys2Proof.Machine

theorem Txq.queue_length (q : Txq) : q.queue.length = q.count.val := by simp [Txq.queue]

theorem Txq.queue_of_empty {q : Txq} (h : q.count.val = 0) : q.queue = [] := by simp [Txq.queue, h]

/-- PEEK answers the first frame of `Q` (40_txq.md R122). -/
theorem Txq.queue_head (q : Txq) : q.queue.head? = q.peek := by
  rcases Txq.peek_cases q with ⟨h0, he⟩ | ⟨h0, he⟩
  · rw [he, Txq.queue_of_empty h0]; rfl
  · obtain ⟨n, hn⟩ : ∃ n, q.count.val = n + 1 := ⟨q.count.val - 1, by omega⟩
    rw [he, Txq.queue, hn, List.range_succ_eq_map]
    simp [Txq.slotAt_zero]

/-- ENQ on a buffer with room appends to `Q` (40_txq.md R121). -/
theorem Txq.enq_queue {q : Txq} (f : Frame) (h : q.inv) (hc : q.count.val ≠ 10) :
    (q.enq f).1.queue = q.queue ++ [f] := by
  obtain ⟨-, -, -, -, hn⟩ := Txq.enq_room f hc
  unfold Txq.queue
  rw [hn, List.range_succ, List.map_append]
  congr 1
  · exact List.map_congr_left fun k hk => Txq.enq_slotAt_live f h (by simpa using hk)
  · simp [Txq.enq_slotAt_new f h hc]

/-- COMMIT drops the first frame of `Q`, if there is one (40_txq.md R123). -/
theorem Txq.commit_queue (q : Txq) : q.commit.queue = q.queue.tail := by
  rcases Txq.commit_cases q with ⟨h0, he⟩ | ⟨h0, -, -, -, hc⟩
  · rw [he, Txq.queue_of_empty h0]; rfl
  · obtain ⟨n, hn⟩ : ∃ n, q.count.val = n + 1 := ⟨q.count.val - 1, by omega⟩
    have hm : q.commit.count.val = n := by omega
    unfold Txq.queue
    rw [hm, hn, List.range_succ_eq_map]
    simp only [List.map_cons, List.map_map, List.tail_cons]
    exact List.map_congr_left fun k _ => Txq.commit_slotAt h0 k

end Sys2Proof.Machine
end

