-- ==== Sys2Proof/Laws/Step.lean ====
section
/-! SUPPORT. What a step and an operation can do, said once: every operation answers a next state, and the three cases of
a step. -/

namespace Sys2Proof.Machine

/-- Every operation answers a next state (60_exceptions.md R272, R273). -/
theorem exec_next (i : Instr) (s : State) : ∃ t, exec i s = .next t := by
  cases i <;> simp only [exec] <;> try exact ⟨_, rfl⟩
  · simp only [execRdCnt]; split <;> exact ⟨_, rfl⟩
  · simp only [execPeek]; split <;> exact ⟨_, rfl⟩

/-- The three cases of a step. -/
theorem step_cases {s t : State} (h : step s = .next t) :
    (s.pending = [] ∧ t = s.start) ∨
    (∃ rest, s.pending = .reset :: rest ∧ t = State.applyReset { s with pending := rest }) ∨
    ∃ word time accept rest, s.pending = .op word time accept :: rest ∧
      ((∃ i, decode word = .ok i ∧ exec i (s.take time accept rest) = .next t) ∨
       ∃ r, decode word = .error r ∧ t = (s.take time accept rest).reject r) := by
  unfold step at h
  cases hp : s.pending with
  | nil =>
    simp only [hp, Host.Outcome.next.injEq] at h
    exact .inl ⟨rfl, h.symm⟩
  | cons e rest =>
    cases e with
    | reset =>
      simp only [hp, Host.Outcome.next.injEq] at h
      exact .inr (.inl ⟨rest, rfl, h.symm⟩)
    | op word time accept =>
      refine .inr (.inr ⟨word, time, accept, rest, rfl, ?_⟩)
      simp only [hp] at h
      cases hd : decode word with
      | ok i => exact .inl ⟨i, rfl, by simpa only [hd] using h⟩
      | error r =>
        simp only [hd, Host.Outcome.next.injEq] at h
        exact .inr ⟨r, rfl, h.symm⟩

/-- Step 1 of REFRESH touches only the slot's flag, the inbound cells, the counters and the outputs
(43_rx_dispatch.md R216). -/
theorem State.drain_frame (s : State) :
    ∃ cells cnt out, s.drain = { s with rxsOcc := false, cells := cells, cnt := cnt, out := out } := by
  unfold State.drain
  split
  · rcases State.dispatch_cases s.rxsFrame s.freeSlot with ⟨-, h⟩ | ⟨i, -, -, ⟨-, h⟩ | ⟨-, ⟨-, h⟩ | ⟨-, h⟩ | ⟨-, h⟩ | ⟨-, h⟩⟩⟩ <;>
      rw [h] <;> exact ⟨_, _, _, rfl⟩
  · next h =>
    have h : s.rxsOcc = false := by simpa using h
    exact ⟨s.cells, s.cnt, s.out, by rw [← h]⟩

/-- ENQ and the answer of a write in closed form (42_write.md R180). -/
theorem State.enqueueAndAnswer_eq (f : Frame) (s : State) :
    s.enqueueAndAnswer f =
      { s with
        txq := (s.txq.enq f).1
        out := s.out ++ [.rsp { res := (if (s.txq.enq f).2 then .ok else .bufferFull), rdata := 0 }] } := by
  unfold State.enqueueAndAnswer
  cases h : (s.txq.enq f).2 <;> rfl

end Sys2Proof.Machine
end

