-- ==== Sys2Proof/Tests/Slice0.lean ====
section
/-! SUPPORT. The model's own tests. Expected values come from spec/: the vectors of 95_test_vectors.md and the encodings of
30_encoding.md and opcode_table.json; a test names its source. Then, for every statement with hypotheses, a theorem that
shows a concrete case meeting them. -/

namespace Sys2Proof.Tests

open Sys2Proof Sys2Proof.Machine Sys2Proof.Machine.Says

/-! ### Helpers -/

/-- A part of the next state, when there is one. -/
def look {α : Type} (o : Host.Outcome State Fault Refusal) (f : State → α) : Option α :=
  match o with
  | .next t => some (f t)
  | .fault _ => none
  | .refused _ => none

/-- One event with its input levels, from a state. -/
def event1 (w : PortWord) (time : Word) (accept : Bool) (s : State) : Host.Outcome State Fault Refusal :=
  step { s with pending := [.op w time accept] }

/-- A ring of ten slots that all hold `f`. -/
def ring (f : Frame) (head tail : Fin 10) (count : Fin 11) : Txq :=
  { slots := Vector.replicate 10 f, head := head, tail := tail, count := count }

/-- The frame of V-W1: `01050000000000123401`. -/
def fa : Frame := Frame.ofWord 0x01050000000000123401

/-- The frame of V-W7: `2206000000000064F000`. -/
def fb : Frame := Frame.ofWord 0x2206000000000064F000

/-- Reset, with one frame queued at slot 0. -/
def one : State := { State.reset with txq := ring fa 0 1 1 }

/-- Reset, with ten frames queued. -/
def full : State := { State.reset with txq := ring fa 0 0 10 }

/-- Reset, with a frame in the handoff slot. -/
def occupied (w : BitVec 79) : State := { State.reset with rxsOcc := true, rxsFrame := Frame.ofWord w }

/-- A frame at slot `k` of the next state's ring. -/
def slot (k : Fin 10) (s : State) : Frame := s.txq.slots[k.val]'k.isLt

/-- `HEAD`, `TAIL`, `COUNT`. -/
def indices (s : State) : Nat × Nat × Nat := (s.txq.head.val, s.txq.tail.val, s.txq.count.val)

/-- The answer `valid` of PEEK. -/
def valid (s : State) : List Bool :=
  s.out.map fun o => match o with
    | .txqFrame v _ => v
    | _ => false

/-- The answer `ok` of DEC.c. -/
def decodedOk (s : State) : List Bool :=
  s.out.map fun o => match o with
    | .decoded v _ _ => v
    | _ => true

/-! ### WellFormed refuses what is out of range (00_scope.md R9, R10, 41_codec.md R142) -/

theorem test_wellformed_dec_len : (Instr.decSi 8 0).wellFormed = true ∧ (Instr.decSi 9 0).wellFormed = false ∧
    (Instr.decDi 9 0).wellFormed = false ∧ (Instr.decMv16 15 0).wellFormed = false ∧
    (Instr.decMv32 9 0).wellFormed = false ∧ (Instr.decSc 9 0).wellFormed = false ∧
    (Instr.decDc 9 0).wellFormed = false ∧ (Instr.decSp16 9 0).wellFormed = false ∧
    (Instr.decSp32 9 0).wellFormed = false := by decide

theorem test_wellformed_frame : Frame.wellFormed fa = true ∧ Frame.wellFormed { fa with len := 9 } = false := by decide

theorem test_wellformed_config_unique : Config.cfgA.wellFormed = true ∧
    { Config.cfgA with idSi := [0x10, 0x10] }.wellFormed = false ∧
    { Config.cfgA with idDi := [1, 2, 1] }.wellFormed = false ∧
    { Config.cfgA with idMv16 := [7, 7] }.wellFormed = false ∧
    { Config.cfgA with idMv32 := [7, 7] }.wellFormed = false ∧
    { Config.cfgA with idSc := [0x10, 0x10] }.wellFormed = false ∧
    { Config.cfgA with idDc := [7, 7] }.wellFormed = false ∧
    { Config.cfgA with idSp16 := [7, 7] }.wellFormed = false ∧
    { Config.cfgA with idSp32 := [7, 7] }.wellFormed = false := by decide

theorem test_wellformed_table_size : tableWellFormed (List.replicate 257 0) = false := by
  rw [tableWellFormed, List.length_replicate]; rfl

/-! ### Decoding: the words of 30_encoding.md and 95_test_vectors.md, written out -/

/-- opcode_table.json, the `APP48` rows (op, z, idx, operand). -/
theorem test_decode_app :
    decode (.app 0b0000_0000_00000000_00000000000000000000000000000000) = .ok .nop ∧
    decode (.app 0b0001_0000_00000001_10101010101010101010101011111111) = .ok (.wrSi 1 0xFF) ∧
    decode (.app 0b0010_0000_00000000_00000000000000000000000000000010) = .ok (.wrDi 0 2) ∧
    decode (.app 0b0011_0000_00000000_00000000000000011000000000000000) = .ok (.wrMv16 0 0x8000) ∧
    decode (.app 0b0100_0000_11111111_10000000000000000000000000000001) = .ok (.wrMv32 0xFF 0x80000001) ∧
    decode (.app 0b0101_0000_00010010_11011110101011011011111011101111) = .ok .refresh ∧
    decode (.app 0b0110_0000_11111111_11111111111111111111111111111111) = .ok .rdStat ∧
    decode (.app 0b0111_0000_00000010_00000000000000000000000000000000) = .ok (.rdCnt 2) := by decide

/-- V-S10 to V-S12: reserved command words. -/
theorem test_decode_reserved :
    decode (.app 0x800000000000) = .error .badOp ∧ decode (.app 0xF00000000000) = .error .badOp ∧
    decode (.app 0x510000000000) = .error .badOp ∧ decode (.app 0x0F0000000000) = .error .badOp := by decide

/-- 30_encoding.md R88 to R91, R96: RX, SENDCOMPLETE, the TXQ selects, the idle values. -/
theorem test_decode_ports :
    decode (.rx 0b101_00110001_0001_0000000000000000000000000000000000000000000000000000000000000011) =
      .ok (.rx { mt := 5, id := 0x31, len := 1, data := 3 }) ∧
    decode (.sc 0b1) = .ok .sendComplete ∧ decode (.sc 0b0) = .error .idleSc ∧
    decode (.txq 0b01 0x01050000000000123401) = .ok (.enq { mt := 0, id := 0x10, len := 5, data := 0x123401 }) ∧
    decode (.txq 0b10 0) = .ok .peek ∧ decode (.txq 0b11 0) = .ok .commit ∧
    decode (.txq 0b00 0) = .error .idleTxq := by decide

/-- 30_encoding.md R96: `ENC.c` is select `0 ‖ code(c)`, `DEC.c` is `1 ‖ code(c)`. -/
theorem test_decode_codec :
    decode (.codec 0b0000 1 2 3 4) = .ok (.encSi 1 2) ∧ decode (.codec 0b0001 1 2 3 4) = .ok (.encDi 1 2) ∧
    decode (.codec 0b0010 1 2 3 4) = .ok (.encMv16 1 2) ∧ decode (.codec 0b0011 1 2 3 4) = .ok (.encMv32 1 2) ∧
    decode (.codec 0b0100 1 2 3 4) = .ok (.encSc 1 2) ∧ decode (.codec 0b0101 1 2 3 4) = .ok (.encDc 1 2) ∧
    decode (.codec 0b0110 1 2 3 4) = .ok (.encSp16 1 2) ∧ decode (.codec 0b0111 1 2 3 4) = .ok (.encSp32 1 2) ∧
    decode (.codec 0b1000 1 2 3 4) = .ok (.decSi 3 4) ∧ decode (.codec 0b1001 1 2 3 4) = .ok (.decDi 3 4) ∧
    decode (.codec 0b1010 1 2 3 4) = .ok (.decMv16 3 4) ∧ decode (.codec 0b1011 1 2 3 4) = .ok (.decMv32 3 4) ∧
    decode (.codec 0b1100 1 2 3 4) = .ok (.decSc 3 4) ∧ decode (.codec 0b1101 1 2 3 4) = .ok (.decDc 3 4) ∧
    decode (.codec 0b1110 1 2 3 4) = .ok (.decSp16 3 4) ∧ decode (.codec 0b1111 1 2 3 4) = .ok (.decSp32 3 4) := by
  decide

/-- 30_encoding.md R83, R84: the wire identifiers of CFG-A's objects (95_test_vectors.md section 1). -/
theorem test_decode_wid :
    decode (.wid 0b000_00010001 5 9) = .ok (.frameSi 0x11 5 9) ∧
    decode (.wid 0b001_00010000 5 9) = .ok (.frameDi 0x10 5 9) ∧
    decode (.wid 0b010_00100000 6 9) = .ok (.frameMv16 0x20 6 9) ∧
    decode (.wid 0b011_00100001 4 9) = .ok (.frameMv32 0x21 4 9) ∧
    decode (.wid 0b100_00110000 1 9) = .ok (.frameSc 0x30 1 9) ∧
    decode (.wid 0b101_00110001 1 9) = .ok (.frameDc 0x31 1 9) ∧
    decode (.wid 0b110_00100000 2 9) = .ok (.frameSp16 0x20 2 9) ∧
    decode (.wid 0b111_01000000 4 9) = .ok (.frameSp32 0x40 4 9) := by decide

/-- Words of spec/opcode_table.json as the host gives them. -/
theorem test_decode_table_word :
    decodeTableWord 48 0x70FF00000000 = some (.rdCnt 255) ∧ decodeTableWord 48 0x800000000000 = none ∧
    decodeTableWord 80 0x41010000000000000001 = some (.rx { mt := 4, id := 0x10, len := 1, data := 1 }) ∧
    decodeTableWord 16 0x620 = some (.frameSp16 0x20 0 0) ∧
    decodeTableWord 8 1 = some .sendComplete ∧ decodeTableWord 8 2 = some .peek ∧ decodeTableWord 8 3 = some .commit ∧
    decodeTableWord 8 0 = some (.encSi 0 0) ∧ decodeTableWord 8 15 = some (.decSp32 0 0) := by decide

/-- A placed word is the next operation: RD_STAT after reset (V-S1). -/
theorem test_fetch_word : look (step (State.reset.withFetchWord 48 0x600000000000)) State.out =
    some [.rsp { res := .ok, rdata := 0x00000010 }] := by decide

/-- R92, R93: the words of V-R1, V-R4, and of a `BadIndex` response. -/
theorem test_output_words :
    Callback.word { cls := 4, idx := 0, value := 1 } = 0x40000000001 ∧
    Callback.word { cls := 6, idx := 0, value := 0xFFFFF000 } = 0x600FFFFF000 ∧
    Response.word { res := .badIndex, rdata := 0 } = 0x600000000 ∧
    Response.word { res := .ok, rdata := 0x1041 } = 0x000001041 := by decide

/-! ### Application writes (section 3.3) -/

/-- V-W1. -/
theorem test_wrSi : look (event1 (.app 0x100000000001) 0x1234 false State.reset)
      (fun t => (t.out, t.cells.si, slot 0 t, indices t)) =
    some ([.rsp { res := .ok, rdata := 0 }], [{ state := 1, ts := 0x1234 }, { state := 0, ts := 0 }], fa, (0, 1, 1)) := by
  decide

/-- V-W14: `BufferFull`, the cell kept. -/
theorem test_wrSi_full : look (event1 (.app 0x100100000001) 60 false full)
      (fun t => (t.out, t.cells.si, decide (t.txq = full.txq))) =
    some ([.rsp { res := .bufferFull, rdata := 0 }], [{ state := 0, ts := 0 }, { state := 1, ts := 60 }], true) := by
  decide

/-- V-W5. -/
theorem test_wrDi : look (event1 (.app 0x200000000002) 0xAABBCCDD false State.reset)
      (fun t => (t.cells.di, (slot 0 t).word)) =
    some ([{ state := 2, ts := 0xAABBCCDD }], 0x1105000000AABBCCDD02) := by decide

/-- V-W6: `BadIndex`. -/
theorem test_wrDi_index : look (event1 (.app 0x200100000001) 5 false State.reset)
      (fun t => (t.out, t.cells.di, indices t)) =
    some ([.rsp { res := .badIndex, rdata := 0 }], [{ state := 0, ts := 0 }], (0, 0, 0)) := by decide

/-- V-W7. -/
theorem test_wrMv16 : look (event1 (.app 0x30000000F000) 100 false State.reset)
      (fun t => (t.cells.mv16, (slot 0 t).word)) =
    some ([{ value := 0xF000, ts := 100 }], 0x2206000000000064F000) := by decide

/-- V-W9: truncated, not saturated. -/
theorem test_wrMv16_truncates : look (event1 (.app 0x300000018000) 7 false State.reset)
      (fun t => (t.cells.mv16, (slot 0 t).word)) =
    some ([{ value := 0x8000, ts := 7 }], 0x22060000000000078000) := by decide

/-- V-W13. -/
theorem test_wrMv32 : look (event1 (.app 0x4000FFFFFFFB) 0x0A0B0C0E false State.reset)
      (fun t => (t.cells.mv32, (slot 0 t).word)) =
    some ([{ value := 0xFFFFFFFB, ts := 0x0A0B0C0E }], 0x321400000000FFFFFFFB) := by decide

/-! ### TXQ (section 3.1) -/

/-- V-Q9: the tail wraps. -/
theorem test_enq_wraps : look (exec (.enq fb) { State.reset with txq := ring fa 8 9 1 })
      (fun t => (slot 9 t, slot 8 t, indices t, t.out)) = some (fb, fa, (8, 0, 2), [.txqOk true]) := by decide

/-- V-Q7: full. -/
theorem test_enq_full : look (exec (.enq fb) full) (fun t => (decide (t.txq = full.txq), t.out)) =
    some (true, [.txqOk false]) := by decide

/-- V-Q1: `Empty`. -/
theorem test_peek_empty : look (exec .peek State.reset) (fun t => (valid t, indices t)) =
    some ([false], (0, 0, 0)) := by decide

/-- V-Q3. -/
theorem test_peek : look (exec .peek one) State.out = some [.txqFrame true fa] := by decide

/-- V-Q10: the head wraps. -/
theorem test_commit_wraps : look (exec .commit { State.reset with txq := ring fa 9 1 2 }) indices = some (0, 1, 1) := by
  decide

/-- V-Q11: no underflow. -/
theorem test_commit_empty : look (exec .commit { State.reset with txq := ring fa 9 9 0 }) indices = some (9, 9, 0) := by
  decide

/-! ### CODEC (section 3.2) -/

/-- V-C2. -/
theorem test_encSi : look (exec (.encSi 1 0xFFFFFFFF) State.reset) State.out = some [.encoded 5 0x000000FFFFFFFF01] := by
  decide

/-- V-C5. -/
theorem test_encDi : look (exec (.encDi 3 0x01020304) State.reset) State.out = some [.encoded 5 0x0000000102030403] := by
  decide

/-- V-C7. -/
theorem test_encMv16 : look (exec (.encMv16 0xFFFF8000 0xFFFFFFFF) State.reset) State.out =
    some [.encoded 6 0x0000FFFFFFFF8000] := by decide

/-- V-C4. -/
theorem test_encMv32 : look (exec (.encMv32 123456789 0xDEADBEEF) State.reset) State.out =
    some [.encoded 4 0x00000000075BCD15] := by decide

/-- V-C11. -/
theorem test_encSc : look (exec (.encSc 255 9) State.reset) State.out = some [.encoded 1 0xFF] := by decide

/-- V-C12. -/
theorem test_encDc : look (exec (.encDc 2 9) State.reset) State.out = some [.encoded 1 2] := by decide

/-- V-C13. -/
theorem test_encSp16 : look (exec (.encSp16 0xFFFFF000 9) State.reset) State.out = some [.encoded 2 0xF000] := by decide

/-- V-C15. -/
theorem test_encSp32 : look (exec (.encSp32 0x80000000 0) State.reset) State.out = some [.encoded 4 0x80000000] := by
  decide

/-- V-C21. -/
theorem test_decSi : look (exec (.decSi 8 0xFFFFFF0000123401) State.reset) State.out =
    some [.decoded true 1 0x00001234] := by decide

/-- V-C22. -/
theorem test_decSi_short : look (exec (.decSi 4 0xFFFFFF0000123401) State.reset) decodedOk = some [false] := by decide

/-- V-C23. -/
theorem test_decDi : look (exec (.decDi 5 0x0000000102030403) State.reset) State.out =
    some [.decoded true 3 0x01020304] := by decide

/-- V-C25. -/
theorem test_decMv16 : look (exec (.decMv16 6 0x0000FFFFFFFF8000) State.reset) State.out =
    some [.decoded true 0xFFFF8000 0xFFFFFFFF] := by decide

/-- V-C26. -/
theorem test_decMv16_short : look (exec (.decMv16 5 0x000000000064F000) State.reset) decodedOk = some [false] := by decide

/-- V-C27. -/
theorem test_decMv32 : look (exec (.decMv32 8 0xDEADBEEF075BCD15) State.reset) State.out =
    some [.decoded true 123456789 0] := by decide

/-- V-C29. -/
theorem test_decSc : look (exec (.decSc 5 0x0000001234567801) State.reset) State.out = some [.decoded true 1 0] := by
  decide

/-- V-C30. -/
theorem test_decDc_short : look (exec (.decDc 0 3) State.reset) decodedOk = some [false] := by decide

/-- 41_codec.md R157's example. -/
theorem test_decDc : look (exec (.decDc 1 3) State.reset) State.out = some [.decoded true 3 0] := by decide

/-- V-C31. -/
theorem test_decSp16 : look (exec (.decSp16 6 0x0000AABBCCDDF000) State.reset) State.out =
    some [.decoded true 0xFFFFF000 0] := by decide

/-- V-C33. -/
theorem test_decSp32 : look (exec (.decSp32 4 0x80000000) State.reset) State.out =
    some [.decoded true 0x80000000 0] := by decide

/-! ### RX and DISPATCH (section 3.4) -/

/-- V-R6: `len` 15 is stored as 8. -/
theorem test_rx_clamps : look (event1 (.rx 0x740FDDCCBBAA075BCD15) 0 false State.reset)
      (fun t => (t.rxsOcc, t.rxsFrame.word)) = some (true, 0x7408DDCCBBAA075BCD15) := by decide

/-- V-R17: the counter wraps, the older frame is kept. -/
theorem test_rx_overflow : look (exec (.rx fa)
      { occupied 0x41010000000000000001 with cnt := { unmatched := 0, inovf := 0xFFFFFFFF, malformed := 0 } })
      (fun t => (t.rxsFrame.word, t.cnt)) =
    some (0x41010000000000000001, { unmatched := 0, inovf := 0, malformed := 0 }) := by decide

/-- P2 step 1 by its wire identifier, `RX.SC 0x10, 1, 01` (30_encoding.md R101). -/
theorem test_frameSc : look (event1 (.wid 0x410 1 1) 0 false State.reset) (fun t => (t.rxsOcc, t.rxsFrame.word)) =
    some (true, 0x41010000000000000001) := by decide

/-- P2 step 10, `RX.SI 0x10, 5, 01 34 12 00 00`. -/
theorem test_frameSi : look (exec (.frameSi 0x10 5 0x123401) State.reset) (fun t => t.rxsFrame.word) =
    some 0x01050000000000123401 := by decide

/-- P2 step 12, `RX.SP32 0x40, 15, 15 CD 5B 07 AA BB CC DD`. -/
theorem test_frameSp32 : look (exec (.frameSp32 0x40 15 0xDDCCBBAA075BCD15) State.reset) (fun t => t.rxsFrame.word) =
    some 0x7408DDCCBBAA075BCD15 := by decide

/-- P2 steps 4, 8 and V-R3's class codes: the words of `RX.DC` and `RX.SP16`; the outbound classes likewise. -/
theorem test_frame_classes :
    look (exec (.frameDc 0x10 1 2) State.reset) (fun t => t.rxsFrame.word) = some 0x51010000000000000002 ∧
    look (exec (.frameSp16 0x20 2 0xF000) State.reset) (fun t => t.rxsFrame.word) = some 0x6202000000000000F000 ∧
    look (exec (.frameDi 0x10 5 2) State.reset) (fun t => t.rxsFrame.word) = some 0x11050000000000000002 ∧
    look (exec (.frameMv16 0x20 6 2) State.reset) (fun t => t.rxsFrame.word) = some 0x22060000000000000002 ∧
    look (exec (.frameMv32 0x21 4 2) State.reset) (fun t => t.rxsFrame.word) = some 0x32140000000000000002 := by decide

/-- V-R2. -/
theorem test_dispatch_sc : look (exec .refresh (occupied 0x43010000000000000001)) (fun t => (t.cells.sc, t.rxsOcc, t.out)) =
    some ([0, 1], false, [.cb { cls := 4, idx := 1, value := 1 }, .rsp { res := .ok, rdata := 0 }]) := by decide

/-- V-R3. -/
theorem test_dispatch_dc : look (exec .refresh (occupied 0x53110000000000000003)) (fun t => (t.cells.dc, t.out)) =
    some ([3], [.cb { cls := 5, idx := 0, value := 3 }, .rsp { res := .ok, rdata := 0 }]) := by decide

/-- V-R4: sign-extended on the event. -/
theorem test_dispatch_sp16 : look (exec .refresh (occupied 0x6202000000000000F000)) (fun t => (t.cells.sp16, t.out)) =
    some ([0xF000], [.cb { cls := 6, idx := 0, value := 0xFFFFF000 }, .rsp { res := .ok, rdata := 0 }]) := by decide

/-- V-R5. -/
theorem test_dispatch_sp32 : look (exec .refresh (occupied 0x740400000000FFFFFFFF)) (fun t => (t.cells.sp32, t.out)) =
    some ([0xFFFFFFFF], [.cb { cls := 7, idx := 0, value := 0xFFFFFFFF }, .rsp { res := .ok, rdata := 0 }]) := by decide

/-- V-R7, V-R9, V-R10, V-R11: one cause each, no event. -/
theorem test_dispatch_discards :
    look (exec .refresh (occupied 0x6201000000000000F000)) State.cnt = some { unmatched := 0, inovf := 0, malformed := 1 } ∧
    look (exec .refresh (occupied 0x51010000000000000002)) State.cnt = some { unmatched := 1, inovf := 0, malformed := 0 } ∧
    look (exec .refresh (occupied 0x01050000000000123401)) State.cnt = some { unmatched := 1, inovf := 0, malformed := 0 } ∧
    look (exec .refresh (occupied 0x49900000000000000000)) State.cnt = some { unmatched := 1, inovf := 0, malformed := 0 } := by
  decide

/-- V-R16: a duplicated Identifier; the lowest index wins. -/
theorem test_dispatch_duplicate :
    look (exec .refresh { State.resetWith { Config.cfgA with idSc := [0x10, 0x10] } with
        rxsOcc := true, rxsFrame := Frame.ofWord 0x41010000000000000001 }) (fun t => t.cells.sc) = some [1, 0] := by decide

/-! ### REFRESH and SENDCOMPLETE (section 3.5) -/

/-- V-T2: presented, rejected, nothing changes. -/
theorem test_refresh_rejected : look (event1 (.app 0x500000000000) 0 false one)
      (fun t => (t.out, t.inflight, decide (t.txq = one.txq))) =
    some ([.tx { wid := 0x010, frameKind := .data, idKind := .standard, len := 5, data := 0x123401 },
      .rsp { res := .ok, rdata := 0 }], false, true) := by decide

/-- V-T9: the event, then the presentation. -/
theorem test_refresh_order : look (event1 (.app 0x500000000000) 0 true
      { one with rxsOcc := true, rxsFrame := Frame.ofWord 0x41010000000000000001 }) (fun t => (t.out, t.inflight)) =
    some ([.cb { cls := 4, idx := 0, value := 1 },
      .tx { wid := 0x010, frameKind := .data, idKind := .standard, len := 5, data := 0x123401 },
      .rsp { res := .ok, rdata := 0 }], true) := by decide

/-- V-T4: not presented twice. -/
theorem test_refresh_inflight : look (exec .refresh { one with inflight := true, txAccept := true }) State.out =
    some [.rsp { res := .ok, rdata := 0 }] := by decide

/-- V-T5. -/
theorem test_sendComplete : look (event1 (.sc 1) 0 false { one with inflight := true })
      (fun t => (indices t, t.inflight, t.out)) = some ((1, 1, 0), false, []) := by decide

/-- V-T6: nothing in flight. -/
theorem test_sendComplete_stray : look (exec .sendComplete one) indices = some (0, 1, 1) := by decide

/-! ### Status operations and reset (sections 3.6, 3.7) -/

/-- V-S2. -/
theorem test_nop : look (event1 (.app 0x00FFFFFFFFFF) 0 false one) (fun t => (t.out, indices t)) =
    some ([.rsp { res := .ok, rdata := 0 }], (0, 1, 1)) := by decide

/-- V-S5. -/
theorem test_rdStat : look (exec .rdStat { one with inflight := true, rxsOcc := true }) State.out =
    some [.rsp { res := .ok, rdata := 0x000010C1 }] := by decide

/-- V-S6. -/
theorem test_rdStat_full : look (event1 (.app 0x60FFFFFFFFFF) 0 false { State.reset with txq := ring fa 1 1 10 }) State.out =
    some [.rsp { res := .ok, rdata := 0x0000112A }] := by decide

/-- V-S8: the counters are not cleared by reading. -/
theorem test_rdCnt : look (event1 (.app 0x700100000000) 0 false
      { State.reset with cnt := { unmatched := 2, inovf := 1, malformed := 2 } }) (fun t => (t.out, t.cnt)) =
    some ([.rsp { res := .ok, rdata := 1 }], { unmatched := 2, inovf := 1, malformed := 2 }) := by decide

/-- V-S9. -/
theorem test_rdCnt_index : look (exec (.rdCnt 3) State.reset) State.out = some [.rsp { res := .badIndex, rdata := 0 }] ∧
    look (exec (.rdCnt 255) State.reset) State.out = some [.rsp { res := .badIndex, rdata := 0 }] := by decide

/-- V-S11: nothing drained, nothing presented. -/
theorem test_reserved_word : look (event1 (.app 0x510000000000) 0 true { one with rxsOcc := true })
      (fun t => (t.out, t.rxsOcc, t.inflight)) = some ([.rsp { res := .badOp, rdata := 0 }], true, false) := by decide

/-- V-X1: the registers after the reset input. -/
theorem test_reset_event : look (step { one with
        inflight := true, rxsOcc := true, cells := { one.cells with sc := [1, 2] }
        cnt := { unmatched := 2, inovf := 1, malformed := 2 }, pending := [.reset] })
      (fun t => (indices t, t.inflight, t.rxsOcc, t.cells.sc, t.cnt)) =
    some ((0, 0, 0), false, false, [0, 0], { unmatched := 0, inovf := 0, malformed := 0 }) := by decide

/-! ### Every statement's hypotheses are met together, clause by clause -/

/-- `o` answers a next state with a property: the form in which a hypothesis `exec i s = .next t` with more about `t` is
shown to be met. -/
theorem next_with {o : Host.Outcome State Fault Refusal} {p : State → Prop} (f : State → Bool)
    (h : look o f = some true) (hp : ∀ t, f t = true → p t) : ∃ t, o = .next t ∧ p t := by
  cases o with
  | next t => exact ⟨t, rfl, hp t (by simpa [look] using h)⟩
  | fault e => simp [look] at h
  | refused r => simp [look] at h

/-- A frame in flight, four events to come that free nothing. -/
def flying : State :=
  { one with
    inflight := true
    pending := [.op (.app 0x500000000000) 1 true, .op (.app 0x100000000000) 2 false, .op (.sc 0) 3 false,
      .op (.rx 0x41010000000000000001) 4 false] }

theorem witness_AppWordIsItsUsedBits :
    decode (.app 0x1000ABCDEF01) = .ok (.wrSi 0 1) ∧ (0x100000000001 : BitVec 48) ≠ 0x1000ABCDEF01 ∧
    (0x100000000001 : BitVec 48) &&& (Instr.wrSi 0 1).usedAppBits = 0x1000ABCDEF01 &&& (Instr.wrSi 0 1).usedAppBits := by
  decide

theorem witness_StepRunsTheDecodedOperation :
    flying.pending = .op (.app 0x500000000000) 1 true :: flying.pending.tail ∧
    decode (.app 0x500000000000) = .ok .refresh := by decide

theorem witness_PlacedWordRunsNext :
    decodeTableWord 48 0x4000075BCD15 = some (.wrMv32 0 123456789) ∧ decodeTableWord 8 1 = some .sendComplete ∧
    decodeTableWord 80 0x740400000000FFFFFFFF = some (.rx (Frame.ofWord 0x740400000000FFFFFFFF)) := by decide

theorem witness_IdlePortsHoldTheState :
    one.pending = [] ∧
    { one with pending := [.op (.sc 0) 7 true] }.pending = .op (.sc 0) 7 true :: [] ∧
    { one with pending := [.op (.txq 0 0) 7 true] }.pending = .op (.txq 0 0) 7 true :: [] := by decide

/-- Both clauses alone, at their boundaries: `op` 8 and 15 with `z = 0`, `z` 1 and 15 with `op` 7 and 0. -/
theorem witness_ReservedWordAnswersBadOp :
    (8 ≤ ((0x800000000000 : BitVec 48).extractLsb' 44 4).toNat ∧ (0x800000000000 : BitVec 48).extractLsb' 40 4 = 0) ∧
    (8 ≤ ((0xF00000000000 : BitVec 48).extractLsb' 44 4).toNat ∧ (0xF00000000000 : BitVec 48).extractLsb' 40 4 = 0) ∧
    (¬ 8 ≤ ((0x710000000000 : BitVec 48).extractLsb' 44 4).toNat ∧ (0x710000000000 : BitVec 48).extractLsb' 40 4 ≠ 0) ∧
    (¬ 8 ≤ ((0x0F0000000000 : BitVec 48).extractLsb' 44 4).toNat ∧ (0x0F0000000000 : BitVec 48).extractLsb' 40 4 ≠ 0) ∧
    { one with pending := [.op (.app 0x800000000000) 7 true] }.pending = .op (.app 0x800000000000) 7 true :: [] := by
  decide

theorem witness_EveryCommandWordGetsOneResponse :
    flying.pending = .op (.app 0x500000000000) 1 true :: flying.pending.tail ∧
    { one with pending := [.op (.sc 1) 7 true] }.pending = .op (.sc 1) 7 true :: [] ∧
    (PortWord.sc 1).port ≠ .main ∧ (PortWord.rx 0).port ≠ .main := by decide

theorem witness_ResetDiscardsEverything :
    { flying with pending := .reset :: flying.pending }.pending = .reset :: flying.pending := by decide

theorem witness_EnqAppendsAtTailOrRejects :
    full.txq.count = 10 ∧ (ring fa 4 3 9).count ≠ 10 ∧ (ring fa 4 3 9).inv ∧
    State.reset.txq.count ≠ 10 ∧ State.reset.txq.inv ∧ State.reset.txq.count = 0 := by decide

theorem witness_PeekReturnsTheHeadFrame :
    State.reset.txq.count = 0 ∧ one.txq.count ≠ 0 ∧ full.txq.count = 10 ∧ full.txq.inv := by decide

theorem witness_CommitRemovesTheHeadFrame :
    State.reset.txq.count = 0 ∧ one.txq.count ≠ 0 ∧ (ring fa 9 1 2).count ≠ 0 ∧ full.txq.count ≠ 0 := by decide

theorem witness_RingRefinesTheQueue :
    full.txq.inv ∧ full.txq.queue.length = 10 ∧ (ring fa 4 3 9).inv ∧ (ring fa 4 3 9).queue.length < 10 ∧
    one.txq.queue.head? = some fa := by decide

/-- Two rings that differ in `HEAD`, `TAIL` and dead slots with the same contents. -/
theorem witness_SameContentsGiveSameAnswers :
    (∀ i ∈ [Instr.peek, .enq fb, .commit], isTxqOp i) ∧ one.txq.inv ∧
    { ring fb 9 0 1 with slots := (ring fb 9 0 1).slots.set 9 fa }.inv ∧
    one.txq.queue = { ring fb 9 0 1 with slots := (ring fb 9 0 1).slots.set 9 fa }.queue ∧
    one.txq ≠ { ring fb 9 0 1 with slots := (ring fb 9 0 1).slots.set 9 fa } := by
  refine ⟨?_, by decide, by decide, by decide, by decide⟩
  intro i hi
  simp only [List.mem_cons, List.not_mem_nil, or_false] at hi
  rcases hi with rfl | rfl | rfl <;> trivial

theorem witness_EleventhEnqueueIsRejected :
    (ring fa 7 7 0).inv ∧ (ring fa 7 7 0).count = 0 ∧ (List.replicate 10 fb).length = 10 := by decide

theorem witness_DrainingAnEmptyBufferIsIdempotent : (ring fa 9 9 0).inv ∧ (ring fa 9 9 0).count = 0 := by decide

theorem witness_EveryStepKeepsTheRingInvariant : flying.txq.inv ∧ ∃ t, step flying = .next t ∧ t.txq.count = 1 :=
  ⟨by decide, next_with (fun t => decide (t.txq.count = 1)) (by decide) (by simp)⟩

/-- ENC.MV16 and ENC.SP16: −4096 extended either way, and a positive value. -/
theorem witness_EncodeMeasured16Layout_EncodeSetPoint16Layout :
    (0x0000F000 : Word) = (0xF000 : Half).setWidth 32 ∧ (0xFFFFF000 : Word) = (0xF000 : Half).signExtend 32 ∧
    (0x00007FFF : Word) = (0x7FFF : Half).setWidth 32 := by decide

/-- Both sides of each class's length test, and the legal ends 0 and 8 (41_codec.md R142). -/
theorem witness_DecodeLengths :
    (∀ len ∈ ([0, 1, 2, 3, 4, 5, 6, 8] : List (BitVec 4)), legalLen len = true) ∧
    (4 : BitVec 4).toNat < 5 ∧ 5 ≤ (5 : BitVec 4).toNat ∧ (5 : BitVec 4).toNat < 6 ∧ 6 ≤ (6 : BitVec 4).toNat ∧
    (3 : BitVec 4).toNat < 4 ∧ 4 ≤ (4 : BitVec 4).toNat ∧ (1 : BitVec 4).toNat < 2 ∧ 2 ≤ (2 : BitVec 4).toNat ∧
    (0 : BitVec 4) = 0 ∧ (1 : BitVec 4) ≠ 0 ∧ 5 ≤ (8 : BitVec 4).toNat := by decide

theorem witness_CodecInputsOutsideTheirRange : 8 < (9 : BitVec 4).toNat ∧ 8 < (15 : BitVec 4).toNat := by decide

/-- The four writes: an index at the table's size, the last index in it, with a full buffer and with one place left; a word
with ignored bits set. -/
theorem witness_Writes :
    full.cfg.idSi.length ≤ (2 : Index).toNat ∧ full.cfg.idSi[(1 : Index).toNat]? = some 0x11 ∧
    full.cfg.idDi.length ≤ (1 : Index).toNat ∧ full.cfg.idDi[(0 : Index).toNat]? = some 0x10 ∧
    full.cfg.idMv16.length ≤ (1 : Index).toNat ∧ full.cfg.idMv16[(0 : Index).toNat]? = some 0x20 ∧
    full.cfg.idMv32.length ≤ (1 : Index).toNat ∧ full.cfg.idMv32[(0 : Index).toNat]? = some 0x21 ∧
    full.txq.count = 10 ∧ { full with txq := ring fa 0 9 9 }.txq.count ≠ 10 ∧
    (0x1001ABCDEF01 : BitVec 48) &&& 0xFF0000000000 = 0x100000000000 ∧
    (0x2001ABCDEF01 : BitVec 48) &&& 0xFF0000000000 = 0x200000000000 ∧
    (0x3001ABCDEF01 : BitVec 48) &&& 0xFF0000000000 = 0x300000000000 ∧
    (0x4001ABCDEF01 : BitVec 48) &&& 0xFF0000000000 = 0x400000000000 := by decide

/-- Each of the eight tables has a cell that some operation changes. -/
theorem witness_CellsChangeOnlyByTheirOperation :
    (∃ t, exec (.wrSi 1 1) State.reset = .next t ∧ t.cells.si[1]? ≠ State.reset.cells.si[1]?) ∧
    (∃ t, exec (.wrDi 0 1) State.reset = .next t ∧ t.cells.di[0]? ≠ State.reset.cells.di[0]?) ∧
    (∃ t, exec (.wrMv16 0 1) State.reset = .next t ∧ t.cells.mv16[0]? ≠ State.reset.cells.mv16[0]?) ∧
    (∃ t, exec (.wrMv32 0 1) State.reset = .next t ∧ t.cells.mv32[0]? ≠ State.reset.cells.mv32[0]?) ∧
    (∃ t, exec .refresh (occupied 0x43010000000000000001) = .next t ∧ t.cells.sc[1]? ≠ State.reset.cells.sc[1]?) ∧
    (∃ t, exec .refresh (occupied 0x53110000000000000003) = .next t ∧ t.cells.dc[0]? ≠ State.reset.cells.dc[0]?) ∧
    (∃ t, exec .refresh (occupied 0x6202000000000000F000) = .next t ∧ t.cells.sp16[0]? ≠ State.reset.cells.sp16[0]?) ∧
    (∃ t, exec .refresh (occupied 0x740400000000FFFFFFFF) = .next t ∧ t.cells.sp32[0]? ≠ State.reset.cells.sp32[0]?) :=
  ⟨next_with (fun t => decide (t.cells.si[1]? ≠ State.reset.cells.si[1]?)) (by decide) (by simp),
   next_with (fun t => decide (t.cells.di[0]? ≠ State.reset.cells.di[0]?)) (by decide) (by simp),
   next_with (fun t => decide (t.cells.mv16[0]? ≠ State.reset.cells.mv16[0]?)) (by decide) (by simp),
   next_with (fun t => decide (t.cells.mv32[0]? ≠ State.reset.cells.mv32[0]?)) (by decide) (by simp),
   next_with (fun t => decide (t.cells.sc[1]? ≠ State.reset.cells.sc[1]?)) (by decide) (by simp),
   next_with (fun t => decide (t.cells.dc[0]? ≠ State.reset.cells.dc[0]?)) (by decide) (by simp),
   next_with (fun t => decide (t.cells.sp16[0]? ≠ State.reset.cells.sp16[0]?)) (by decide) (by simp),
   next_with (fun t => decide (t.cells.sp32[0]? ≠ State.reset.cells.sp32[0]?)) (by decide) (by simp)⟩

/-- A state meets the hypotheses of `LastWriteStays`: `word` at 200, then `other` and an RX, then a reset. -/
def MeetsLastWriteStays {α : Type} (table : Config → List Identifier) (write : Index → α → Instr) (word other : PortWord)
    (idx : Index) (x : α) : Prop :=
  ∃ s : State, s.cells.fits s.cfg ∧ idx.toNat < (table s.cfg).length ∧
    s.pending = .op word 200 false :: ([.op other 300 false, .op (.rx 0) 400 false] ++ [.reset]) ∧
    decode word = .ok (write idx x) ∧
    ∀ e ∈ [Stimulus.op other 300 false, .op (.rx 0) 400 false],
      e ≠ .reset ∧ ∀ w t a y, e = .op w t a → decode w ≠ .ok (write idx y)

theorem meetsLastWriteStays {α : Type} {table : Config → List Identifier} {write : Index → α → Instr}
    {word other : PortWord} {idx : Index} {x : α} {i : Instr} (hl : idx.toNat < (table State.reset.cfg).length)
    (hw : decode word = .ok (write idx x)) (ho : decode other = .ok i) (hi : ∀ y, i ≠ write idx y)
    (hr : ∀ f y, Instr.rx f ≠ write idx y) : MeetsLastWriteStays table write word other idx x := by
  have hf : State.reset.cells.fits State.reset.cfg := by decide
  refine ⟨{ State.reset with pending := .op word 200 false ::
    ([.op other 300 false, .op (.rx 0) 400 false] ++ [.reset]) }, hf, hl, rfl, hw, ?_⟩
  intro e he
  simp only [List.mem_cons, List.not_mem_nil, or_false] at he
  rcases he with rfl | rfl <;> refine ⟨by simp, ?_⟩ <;> rintro w t a y h hd <;> cases h
  · exact hi y (Except.ok.inj (ho.symm.trans hd))
  · exact hr _ y (Except.ok.inj hd)

/-- Each class of the statement: index 1, the last of `SI`, with a write to index 0 between; `DI` with a write to `SI` at
the same index; `MV16` with one to `MV32`; `MV32` with one to an index that the table does not hold. -/
theorem witness_TimestampIsThatOfTheLastWrite :
    MeetsLastWriteStays Config.idSi .wrSi (.app 0x100100000000) (.app 0x100000000001) 1 0 ∧
    MeetsLastWriteStays Config.idDi .wrDi (.app 0x200000000002) (.app 0x100000000001) 0 2 ∧
    MeetsLastWriteStays Config.idMv16 .wrMv16 (.app 0x30000000F000) (.app 0x4000075BCD15) 0 0xF000 ∧
    MeetsLastWriteStays Config.idMv32 .wrMv32 (.app 0x4000075BCD15) (.app 0x40FF00000000) 0 0x075BCD15 :=
  ⟨meetsLastWriteStays (i := .wrSi 0 1) (by decide) (by decide) (by decide) (by simp) (by simp),
   meetsLastWriteStays (i := .wrSi 0 1) (by decide) (by decide) (by decide) (by simp) (by simp),
   meetsLastWriteStays (i := .wrMv32 0 0x075BCD15) (by decide) (by decide) (by decide) (by simp) (by simp),
   meetsLastWriteStays (i := .wrMv32 255 0) (by decide) (by decide) (by decide) (by simp) (by simp)⟩

theorem witness_ReceiveStoresOrCounts_FurtherFramesAreOnlyCounted :
    (occupied 0x41010000000000000001).rxsOcc = true ∧ State.reset.rxsOcc = false ∧
    ({ mt := 7, id := 0x40, len := 8, data := 1 } : Frame) =
      { mt := 7, id := 0x40, len := (if (15 : BitVec 4).toNat ≤ 8 then 15 else 8), data := 1 } := by decide

/-- Each alternative alone: the last outbound class with an Identifier that a table holds, an inbound class without. -/
theorem witness_UnmatchedFrameIsCountedAndDiscarded :
    (occupied 0x32140000000000000001).rxsOcc = true ∧
    (occupied 0x32140000000000000001).rxsFrame.mt.toNat < 4 ∧
    ¬ (occupied 0x49910000000000000001).rxsFrame.mt.toNat < 4 ∧
    (occupied 0x49910000000000000001).rxsFrame.id ∉
      idTable State.reset.cfg (MsgClass.ofCode (occupied 0x49910000000000000001).rxsFrame.mt) := by decide

/-- The hypotheses on a malformed frame, as a test of the frame word. -/
def malformedHyps (w : BitVec 79) : Bool :=
  (occupied w).rxsOcc && decide (4 ≤ (occupied w).rxsFrame.mt.toNat) &&
  decide ((occupied w).rxsFrame.id ∈ idTable (occupied w).cfg (MsgClass.ofCode (occupied w).rxsFrame.mt)) &&
  decide ((occupied w).rxsFrame.len.toNat < requiredWidth (MsgClass.ofCode (occupied w).rxsFrame.mt))

/-- One byte less than the class's width, for each inbound class. -/
theorem witness_MalformedFrameIsCountedAndDiscarded :
    malformedHyps 0x41000000000000000001 = true ∧ malformedHyps 0x53100000000000000003 = true ∧
    malformedHyps 0x6201000000000000F000 = true ∧ malformedHyps 0x740300000000FFFFFFFF = true := by decide

/-- Each class at its least length. -/
theorem witness_DeliveredFrameUpdatesOneCellAndCallsBack :
    ((occupied 0x43010000000000000001).rxsFrame.mt = 4 ∧ FirstMatch State.reset.cfg.idSc 0x30 1 ∧
      (occupied 0x43010000000000000001).rxsFrame.id = 0x30 ∧ 1 ≤ (occupied 0x43010000000000000001).rxsFrame.len.toNat) ∧
    ((occupied 0x53110000000000000003).rxsFrame.mt = 5 ∧ FirstMatch State.reset.cfg.idDc 0x31 0 ∧
      (occupied 0x53110000000000000003).rxsFrame.id = 0x31 ∧ 1 ≤ (occupied 0x53110000000000000003).rxsFrame.len.toNat) ∧
    ((occupied 0x6202000000000000F000).rxsFrame.mt = 6 ∧ FirstMatch State.reset.cfg.idSp16 0x20 0 ∧
      (occupied 0x6202000000000000F000).rxsFrame.id = 0x20 ∧ 2 ≤ (occupied 0x6202000000000000F000).rxsFrame.len.toNat) ∧
    ((occupied 0x740400000000FFFFFFFF).rxsFrame.mt = 7 ∧ FirstMatch State.reset.cfg.idSp32 0x40 0 ∧
      (occupied 0x740400000000FFFFFFFF).rxsFrame.id = 0x40 ∧ 4 ≤ (occupied 0x740400000000FFFFFFFF).rxsFrame.len.toNat) := by
  unfold FirstMatch
  decide

theorem witness_CallbackIsOfTheFramesOwnClass :
    (occupied 0x43010000000000000001).cfg.wellFormed = true ∧
    ∃ t, exec .refresh (occupied 0x43010000000000000001) = .next t ∧ .cb { cls := 4, idx := 1, value := 1 } ∈ t.out :=
  ⟨by decide, next_with (fun t => decide (.cb { cls := 4, idx := 1, value := 1 } ∈ t.out)) (by decide) (by simp)⟩

/-- The three counters each move in some operation. -/
theorem witness_AtMostOneCauseIsCounted :
    (∃ t, exec .refresh (occupied 0x51010000000000000002) = .next t ∧ t.cnt.unmatched = 1) ∧
    (∃ t, exec .refresh (occupied 0x6201000000000000F000) = .next t ∧ t.cnt.malformed = 1) ∧
    (∃ t, exec (.frameSc 0x10 1 1) (occupied 0x6201000000000000F000) = .next t ∧ t.cnt.inovf = 1) :=
  ⟨next_with (fun t => decide (t.cnt.unmatched = 1)) (by decide) (by simp),
   next_with (fun t => decide (t.cnt.malformed = 1)) (by decide) (by simp),
   next_with (fun t => decide (t.cnt.inovf = 1)) (by decide) (by simp)⟩

theorem witness_RefreshPresentsTheHeadFrame :
    (0x5012DEADBEEF : BitVec 48) &&& 0xFF0000000000 = 0x500000000000 ∧
    (State.reset.rxsOcc = false ∧ State.reset.txq.count = 0) ∧
    (flying.rxsOcc = false ∧ flying.txq.count ≠ 0 ∧ flying.inflight = true) ∧
    (one.rxsOcc = false ∧ one.txq.count ≠ 0 ∧ one.inflight = false ∧ one.txq.peek = some fa ∧ one.txAccept = false) ∧
    { one with txAccept := true }.txAccept = true := by decide

theorem witness_SendCompleteCommitsTheFrameInFlight :
    flying.inflight = true ∧ flying.txq.count ≠ 0 ∧ one.inflight = false ∧ State.reset.inflight = false := by decide

theorem witness_NothingIsPresentedWhileAFrameIsInFlight :
    flying.txq.inv ∧ flying.inflight = true ∧ 0 < flying.txq.count.val ∧
    ∀ e ∈ flying.pending.take (3 + 1), e.frees = false := by decide

theorem witness_StatusWords :
    (0x00FFFFFFFFFF : BitVec 48) &&& 0xFF0000000000 = 0 ∧
    (0x60FFFFFFFFFF : BitVec 48) &&& 0xFF0000000000 = 0x600000000000 ∧
    (0x7003FFFFFFFF : BitVec 48) &&& 0xFF0000000000 = 0x700000000000 ∧
    3 ≤ (3 : Index).toNat ∧ 3 ≤ (255 : Index).toNat := by decide

theorem witness_StatusOperationsAreTransparent : isStatus .nop ∧ isStatus .rdStat ∧ isStatus (.rdCnt 2) :=
  ⟨trivial, trivial, trivial⟩

/-- Each register that the statement names changes in some operation. -/
theorem witness_RegistersHaveTheirWriters :
    (∃ t, exec .commit one = .next t ∧ t.txq.head ≠ one.txq.head) ∧
    (∃ t, exec (.enq fb) one = .next t ∧ t.txq.tail ≠ one.txq.tail ∧ t.txq.slots ≠ one.txq.slots) ∧
    (∃ t, exec .refresh { one with txAccept := true } = .next t ∧ t.inflight ≠ one.inflight) ∧
    (∃ t, exec (.rx fb) one = .next t ∧ one.rxsOcc = false ∧ t.rxsOcc = true ∧ t.rxsFrame ≠ one.rxsFrame) ∧
    (∃ t, exec .refresh { one with rxsOcc := true } = .next t ∧ t.rxsOcc = false) ∧
    (∃ t, exec (.wrSi 0 1) one = .next t ∧ t.txq.count ≠ one.txq.count ∧ t.cells.si ≠ one.cells.si) ∧
    (∃ t, exec .refresh (occupied 0x41010000000000000001) = .next t ∧ t.cells.sc ≠ State.reset.cells.sc) ∧
    (∃ t, exec .refresh (occupied 0x51010000000000000002) = .next t ∧ t.cnt.unmatched ≠ 0) ∧
    (∃ t, exec (.rx fb) (occupied 0x41010000000000000001) = .next t ∧ t.cnt.inovf ≠ 0) :=
  ⟨next_with (fun t => decide (t.txq.head ≠ one.txq.head)) (by decide) (by simp),
   next_with (fun t => decide (t.txq.tail ≠ one.txq.tail ∧ t.txq.slots ≠ one.txq.slots)) (by decide) (by simp),
   next_with (fun t => decide (t.inflight ≠ one.inflight)) (by decide) (by simp),
   next_with (fun t => decide (one.rxsOcc = false ∧ t.rxsOcc = true ∧ t.rxsFrame ≠ one.rxsFrame)) (by decide) (by simp),
   next_with (fun t => decide (t.rxsOcc = false)) (by decide) (by simp),
   next_with (fun t => decide (t.txq.count ≠ one.txq.count ∧ t.cells.si ≠ one.cells.si)) (by decide) (by simp),
   next_with (fun t => decide (t.cells.sc ≠ State.reset.cells.sc)) (by decide) (by simp),
   next_with (fun t => decide (t.cnt.unmatched ≠ 0)) (by decide) (by simp),
   next_with (fun t => decide (t.cnt.inovf ≠ 0)) (by decide) (by simp)⟩

theorem witness_ReceptionAndWriteCommute :
    isWrite (.wrSi 0 1) ∧ isWrite (.wrDi 0 1) ∧ isWrite (.wrMv16 0 1) ∧ isWrite (.wrMv32 0 1) :=
  ⟨trivial, trivial, trivial, trivial⟩

/-- A write depends on `TIME`, a presenting REFRESH on `tx_accept`; the three alternatives for `tx_accept` are met apart. -/
theorem witness_InputsAreSampledOnlyByTheirOperations :
    ¬ isWrite .nop ∧ (∃ t, exec .nop one = .next t) ∧ Instr.nop ≠ .refresh ∧ State.reset.txq.count = 0 ∧
    flying.inflight = true :=
  ⟨fun h => h, ⟨_, rfl⟩, by decide, by decide, by decide⟩

theorem witness_EveryStepKeepsTheInvariant : flying.Inv ∧ ∃ t, step flying = .next t ∧ t.inflight = true :=
  ⟨⟨by decide, by decide, by decide, by decide, by decide, by decide, by decide⟩,
   next_with State.inflight (by decide) (by simp)⟩

/-- Reset with one frame queued and a REFRESH to come. -/
def ready : State := { one with pending := [.op (.app 0x500000000000) 1 true] }

theorem witness_PresentationsAreOutboundDataFrames : ready.Inv ∧ ∃ t, step ready = .next t ∧
    .tx { wid := 0x010, frameKind := .data, idKind := .standard, len := 5, data := 0x123401 } ∈ t.out :=
  ⟨⟨by decide, by decide, by decide, by decide, by decide, by decide, by decide⟩,
   next_with (fun t => decide (.tx { wid := 0x010, frameKind := .data, idKind := .standard, len := 5, data := 0x123401 } ∈ t.out))
     (by decide) (by simp)⟩

end Sys2Proof.Tests
end

