-- ==== Sys2Proof/Proofs/Reset.lean ====
section
/-! The registers after reset (10_state.md R43): one equation per register, then the statement that collects them. -/

namespace Sys2Proof.Machine

/-! ### TXQ and the counters after reset -/

@[simp] theorem Txq.reset_head : Txq.reset.head = 0 := rfl
@[simp] theorem Txq.reset_tail : Txq.reset.tail = 0 := rfl
@[simp] theorem Txq.reset_count : Txq.reset.count = 0 := rfl

@[simp] theorem Counters.reset_unmatched : Counters.reset.unmatched = 0 := rfl
@[simp] theorem Counters.reset_inovf : Counters.reset.inovf = 0 := rfl
@[simp] theorem Counters.reset_malformed : Counters.reset.malformed = 0 := rfl

/-! ### The object cells after reset: a table has as many zero cells as its class has identifiers -/

@[simp] theorem Cells.reset_si (c : Config) :
    (Cells.reset c).si = List.replicate c.idSi.length { state := 0, ts := 0 } := List.map_const' ..
@[simp] theorem Cells.reset_di (c : Config) :
    (Cells.reset c).di = List.replicate c.idDi.length { state := 0, ts := 0 } := List.map_const' ..
@[simp] theorem Cells.reset_mv16 (c : Config) :
    (Cells.reset c).mv16 = List.replicate c.idMv16.length { value := 0, ts := 0 } := List.map_const' ..
@[simp] theorem Cells.reset_mv32 (c : Config) :
    (Cells.reset c).mv32 = List.replicate c.idMv32.length { value := 0, ts := 0 } := List.map_const' ..
@[simp] theorem Cells.reset_sc (c : Config) : (Cells.reset c).sc = List.replicate c.idSc.length 0 := List.map_const' ..
@[simp] theorem Cells.reset_dc (c : Config) : (Cells.reset c).dc = List.replicate c.idDc.length 0 := List.map_const' ..
@[simp] theorem Cells.reset_sp16 (c : Config) : (Cells.reset c).sp16 = List.replicate c.idSp16.length 0 :=
  List.map_const' ..
@[simp] theorem Cells.reset_sp32 (c : Config) : (Cells.reset c).sp32 = List.replicate c.idSp32.length 0 :=
  List.map_const' ..

/-! ### The state after reset, field by field -/

@[simp] theorem State.resetWith_txq (c : Config) : (State.resetWith c).txq = Txq.reset := rfl
@[simp] theorem State.resetWith_inflight (c : Config) : (State.resetWith c).inflight = false := rfl
@[simp] theorem State.resetWith_rxsOcc (c : Config) : (State.resetWith c).rxsOcc = false := rfl
@[simp] theorem State.resetWith_cells (c : Config) : (State.resetWith c).cells = Cells.reset c := rfl
@[simp] theorem State.resetWith_cnt (c : Config) : (State.resetWith c).cnt = Counters.reset := rfl
@[simp] theorem State.resetWith_cfg (c : Config) : (State.resetWith c).cfg = c := rfl
@[simp] theorem State.resetWith_out (c : Config) : (State.resetWith c).out = [] := rfl

/-- `State.reset` is no special case: it is the reset state of its own configuration. -/
theorem State.reset_eq_resetWith : State.reset = State.resetWith State.reset.cfg := by
  rw [State.reset, State.resetWith_cfg]

/-- Settles O11: the equations above, for the state after reset under any configuration. -/
theorem resetValues : Obligations.ResetValues := by
  refine ⟨State.reset_eq_resetWith, ?_⟩
  rintro c _ rfl
  simp only [State.resetWith_txq, State.resetWith_inflight, State.resetWith_rxsOcc, State.resetWith_cells,
    State.resetWith_cnt, State.resetWith_out]
  exact ⟨Txq.reset_head, Txq.reset_tail, Txq.reset_count, trivial, trivial,
    Cells.reset_si c, Cells.reset_di c, Cells.reset_mv16 c, Cells.reset_mv32 c,
    Cells.reset_sc c, Cells.reset_dc c, Cells.reset_sp16 c, Cells.reset_sp32 c,
    Counters.reset_unmatched, Counters.reset_inovf, Counters.reset_malformed, trivial⟩

end Sys2Proof.Machine
end

