-- ==== Sys2Proof/Proofs/FrameWord.lean ====
section
/-! The frame word `FRM79` (30_encoding.md R88), both ways: the fields of a frame's word, and the word of a word's
fields. The places of the single fields are in the laws of the decoder. -/

namespace Sys2Proof

/-- Bits 78:68 are the wire identifier (30_encoding.md R83): `mt` and `id` lie side by side above `len` and `data`. -/
theorem Frame.word_wid (f : Frame) : f.word.extractLsb' 68 11 = f.wid :=
  (slice_append_high (f.mt ++ f.id ++ f.len) f.data 4 11).trans
    ((slice_append_high (f.mt ++ f.id) f.len 0 11).trans (slice_all _))

@[simp] theorem Frame.ofWord_word (f : Frame) : Frame.ofWord f.word = f := by
  rw [Frame.ofWord, f.word_mt, f.word_id, f.word_len, f.word_data]

/-- The four fields leave no bit out: each joins the slice above it, down to bit 0. -/
@[simp] theorem Frame.word_ofWord (w : BitVec 79) : (Frame.ofWord w).word = w :=
  calc (Frame.ofWord w).word
    _ = w.extractLsb' 76 3 ++ w.extractLsb' 68 8 ++ w.extractLsb' 64 4 ++ w.extractLsb' 0 64 := rfl
    _ = w.extractLsb' 68 11 ++ w.extractLsb' 64 4 ++ w.extractLsb' 0 64 := by
      rw [BitVec.extractLsb'_append_extractLsb'_eq_extractLsb' (show 76 = 68 + 8 from rfl)]
    _ = w.extractLsb' 64 15 ++ w.extractLsb' 0 64 := by
      rw [BitVec.extractLsb'_append_extractLsb'_eq_extractLsb' (show 68 = 64 + 4 from rfl)]
    _ = w.extractLsb' 0 79 := BitVec.extractLsb'_append_extractLsb'_eq_extractLsb' (show 64 = 0 + 64 from rfl)
    _ = w := slice_all w

end Sys2Proof

namespace Sys2Proof.Machine

/-- The payload is at the foot of the word, so `Data[i]` is at the same bits of either (00_scope.md R14). -/
theorem dataByte_ofWord (w : BitVec 79) (i : Nat) (hi : i < 8) :
    dataByte (Frame.ofWord w).data i = w.extractLsb' (8 * i) 8 :=
  BitVec.extractLsb'_extractLsb'_of_le (show 8 * i + 8 ≤ 64 by omega)

/-- Settles O4: the places of the fields, and that frames and 79-bit words are the same thing read two ways. -/
theorem frameWordHasItsFields : Obligations.FrameWordHasItsFields :=
  ⟨fun f => ⟨f.word_mt, f.word_id, f.word_len, f.word_data, f.word_wid, f.ofWord_word⟩,
   fun w => ⟨Frame.word_ofWord w, fun i => dataByte_ofWord w i.val i.isLt⟩⟩

end Sys2Proof.Machine
end

