-- ==== Sys2Proof/Proofs/TxqPrimitives.lean ====
section
/-! The three TXQ primitives (40_txq.md R121 to R123): the next state of each in closed form, the flags and corner cases
of the buffer they leave, then the three statements. -/

open Sys2Proof.Machine.Says

namespace Sys2Proof.Machine

/-! ### COUNT and the flags (10_state.md R27): the statements compare `COUNT` as a `Fin 11`, the laws of the ring by its value -/

theorem Txq.count_eq_zero_iff (q : Txq) : q.count = 0 ↔ q.count.val = 0 := Fin.ext_iff
theorem Txq.count_eq_ten_iff (q : Txq) : q.count = 10 ↔ q.count.val = 10 := Fin.ext_iff

theorem Txq.empty_iff (q : Txq) : q.empty = true ↔ q.count.val = 0 := decide_eq_true_iff
theorem Txq.full_iff (q : Txq) : q.full = true ↔ q.count.val = 10 := decide_eq_true_iff

theorem Txq.empty_eq_false_iff (q : Txq) : q.empty = false ↔ q.count.val ≠ 0 := decide_eq_false_iff_not
theorem Txq.full_eq_false_iff (q : Txq) : q.full = false ↔ q.count.val ≠ 10 := decide_eq_false_iff_not

/-! ### The operations in closed form -/

theorem exec_enq (f : Frame) (s : State) :
    exec (.enq f) s = .next { s with txq := (s.txq.enq f).1, out := [.txqOk (s.txq.enq f).2] } := rfl

theorem exec_commit (s : State) : exec .commit s = .next { s with txq := s.txq.commit, out := [] } := rfl

theorem exec_peek_of_none {s : State} (h : s.txq.peek = none) :
    exec .peek s = .next { s with fresh := s.fresh + 1, out := [.txqFrame false (Config.freeFrame s.fresh)] } := by
  simp only [exec, execPeek, h]
  rfl

theorem exec_peek_of_some {s : State} {f : Frame} (h : s.txq.peek = some f) :
    exec .peek s = .next { s with out := [.txqFrame true f] } := by
  simp only [exec, execPeek, h]
  rfl

/-! ### ENQ on a buffer with room -/

theorem Txq.enqueued_enq {q : Txq} (f : Frame) (h : q.count.val ≠ 10) : Enqueued f q (q.enq f).1 := by
  obtain ⟨-, hslots, hhead, htail, hcount⟩ := Txq.enq_room f h
  exact ⟨hslots, hhead, by rw [htail, nextSlot_val], hcount⟩

theorem Says.Enqueued.empty_eq_false {f : Frame} {q r : Txq} (h : Enqueued f q r) : r.empty = false := by
  obtain ⟨-, -, -, hcount⟩ := h
  rw [Txq.empty_eq_false_iff]
  omega

theorem Says.Enqueued.full_iff {f : Frame} {q r : Txq} (h : Enqueued f q r) : r.full = true ↔ q.count = 9 := by
  obtain ⟨-, -, -, hcount⟩ := h
  have nine : q.count = 9 ↔ q.count.val = 9 := Fin.ext_iff
  rw [Txq.full_iff, nine]
  omega

/-- On an empty buffer the enqueued frame becomes the head: it is the whole of `Q` (10_state.md R28). -/
theorem Txq.enq_peek_of_empty {q : Txq} (f : Frame) (hinv : q.inv) (h : q.count.val = 0) :
    (q.enq f).1.peek = some f := by
  rw [← Txq.queue_head, Txq.enq_queue f hinv (by omega), Txq.queue_of_empty h]
  rfl

/-! ### COMMIT on a buffer that holds a frame -/

theorem Txq.headRemoved_commit {q : Txq} (h : q.count.val ≠ 0) : HeadRemoved q q.commit := by
  rcases Txq.commit_cases q with ⟨h0, -⟩ | ⟨-, hslots, hhead, htail, hcount⟩
  · exact absurd h0 h
  · exact ⟨hslots, by rw [hhead, nextSlot_val], htail, hcount⟩

theorem Txq.commit_of_empty {q : Txq} (h : q.count.val = 0) : q.commit = q := by
  rcases Txq.commit_cases q with ⟨-, hsame⟩ | ⟨hne, -⟩
  · exact hsame
  · exact absurd h hne

theorem Says.HeadRemoved.full_eq_false {q r : Txq} (h : HeadRemoved q r) : r.full = false := by
  obtain ⟨-, -, -, hcount⟩ := h
  have := q.count.isLt
  rw [Txq.full_eq_false_iff]
  omega

theorem Says.HeadRemoved.empty_iff {q r : Txq} (h : HeadRemoved q r) : r.empty = true ↔ q.count = 1 := by
  obtain ⟨-, -, -, hcount⟩ := h
  have one : q.count = 1 ↔ q.count.val = 1 := Fin.ext_iff
  rw [Txq.empty_iff, one]
  omega

/-! ### PEEK, and the indices of a full ring -/

theorem Txq.peek_of_empty {q : Txq} (h : q.count.val = 0) : q.peek = none := by
  rcases Txq.peek_cases q with ⟨-, hnone⟩ | ⟨hne, -⟩
  · exact hnone
  · exact absurd h hne

theorem Txq.peek_of_nonempty {q : Txq} (h : q.count.val ≠ 0) : q.peek = some (q.slots[q.head.val]'q.head.isLt) := by
  rcases Txq.peek_cases q with ⟨h0, -⟩ | ⟨-, hhead⟩
  · exact absurd h0 h
  · exact hhead

/-- Ten slots on from `HEAD` is `HEAD` again (10_state.md R26). -/
theorem Txq.head_eq_tail_of_full {q : Txq} (h : q.count.val = 10) (hinv : q.inv) : q.head = q.tail := by
  have := q.head.isLt
  apply Fin.ext
  simp only [Txq.inv, h] at hinv
  omega

/-! ### The statements -/

/-- Settles O13: by whether the buffer has room; the corner cases are those of the live window and of `Q`. -/
theorem enqAppendsAtTailOrRejects : Obligations.EnqAppendsAtTailOrRejects := by
  intro f s
  refine ⟨fun w => rfl, fun hfull => ?_, fun hroom => ?_⟩
  · rw [Txq.count_eq_ten_iff] at hfull
    rw [exec_enq, Txq.enq_full f hfull]
  · rw [Ne, Txq.count_eq_ten_iff] at hroom
    have hok : (s.txq.enq f).2 = true := (Txq.enq_room f hroom).1
    have henq : Enqueued f s.txq (s.txq.enq f).1 := Txq.enqueued_enq f hroom
    refine ⟨(s.txq.enq f).1, by rw [exec_enq, hok], henq, henq.empty_eq_false, henq.full_iff, fun hinv => ⟨?_, ?_⟩⟩
    · exact fun k hk => Txq.enq_slotAt_live f hinv hk
    · exact fun hempty => Txq.enq_peek_of_empty f hinv ((Txq.count_eq_zero_iff _).1 hempty)

/-- Settles O14: by whether the buffer holds a frame. -/
theorem peekReturnsTheHeadFrame : Obligations.PeekReturnsTheHeadFrame := by
  intro s
  refine ⟨fun w => rfl, fun hempty => ?_, fun hne => ?_, fun hfull hinv => ?_⟩
  · rw [Txq.count_eq_zero_iff] at hempty
    exact ⟨_, _, exec_peek_of_none (Txq.peek_of_empty hempty)⟩
  · rw [Ne, Txq.count_eq_zero_iff] at hne
    exact exec_peek_of_some (Txq.peek_of_nonempty hne)
  · exact Txq.head_eq_tail_of_full ((Txq.count_eq_ten_iff _).1 hfull) hinv

/-- Settles O15: by whether the buffer holds a frame. -/
theorem commitRemovesTheHeadFrame : Obligations.CommitRemovesTheHeadFrame := by
  intro s
  refine ⟨fun w => rfl, fun hempty => ?_, fun hne => ?_⟩
  · rw [Txq.count_eq_zero_iff] at hempty
    rw [exec_commit, Txq.commit_of_empty hempty]
  · rw [Ne, Txq.count_eq_zero_iff] at hne
    have hremoved : HeadRemoved s.txq s.txq.commit := Txq.headRemoved_commit hne
    exact ⟨s.txq.commit, exec_commit s, hremoved, hremoved.full_eq_false, hremoved.empty_iff⟩

end Sys2Proof.Machine
end

