-- ==== Sys2Proof/Proofs/Codec.lean ====
section
/-! The codec (41_codec.md): the common rules R141 and R142 said once for all eight classes, what the selects of `CODEC4`
run, the bytes of each encode layout; then the statements, each the common rule at its classes. -/

open Sys2Proof.Machine.Says

namespace Sys2Proof.Machine

/-! ### The selects of `CODEC4` (30_encoding.md R96): the direction bit, then the class code -/

theorem decode_encodeSelect (c : MsgClass) (v t : Word) (len : BitVec 4) (data : Payload) :
    decode (.codec ((0 : BitVec 1) ++ c.code) v t len data) = .ok (encodeInstr c v t) := by
  cases c <;> rfl

theorem decode_decodeSelect (c : MsgClass) (v t : Word) (len : BitVec 4) (data : Payload) :
    decode (.codec ((1 : BitVec 1) ++ c.code) v t len data) = .ok (decodeInstr c len data) := by
  cases c <;> rfl

/-! ### Encode: one equation for the eight classes (41_codec.md R141) -/

/-- The length and payload that `ENC.c` answers. -/
def encodedFrame (c : MsgClass) (v t : Word) : BitVec 4 × Payload :=
  match c with
  | .si | .di => encIndication (v.setWidth 8) t
  | .mv16 => encMeasured16 (v.setWidth 16) t
  | .sc | .dc => encCommand (v.setWidth 8)
  | .sp16 => encSetPoint16 (v.setWidth 16)
  | .mv32 | .sp32 => encValue32 v

theorem exec_encodeInstr (c : MsgClass) (v t : Word) (s : State) :
    exec (encodeInstr c v t) s =
      .next { s with out := [.encoded (encodedFrame c v t).1 (encodedFrame c v t).2] } := by
  cases c <;> rfl

/-- A 16-bit value comes back from the low half of the 32-bit input, whichever way it was extended. -/
theorem setWidth_of_extended {x : Half} {v : Word} (h : v = x.setWidth 32 ∨ v = x.signExtend 32) :
    v.setWidth 16 = x := by
  rcases h with rfl | rfl
  · exact (BitVec.setWidth_setWidth_of_le x (by omega : 16 ≤ 32)).trans x.setWidth_eq
  · ext i hi
    have hi32 : i < 32 := by omega
    simp [BitVec.getElem_signExtend, hi, hi32]

/-! ### The bytes of the encode layouts (41_codec.md R144 to R151) -/

/-- A byte after MemWrite (00_scope.md R15): in the field a byte of the value, elsewhere the old byte. -/
theorem dataByte_memWrite (d : Payload) (a n : Nat) (v : BitVec (8 * n)) (i : Nat) (hi : i < 8) (h : a + n ≤ 8) :
    dataByte (memWrite d a n v) i = if a ≤ i ∧ i < a + n then v.extractLsb' (8 * (i - a)) 8 else dataByte d i := by
  split
  next hin =>
    obtain ⟨hlow, hhigh⟩ := hin
    exact dataByte_memWrite_inside d a n v i hlow hhigh h
  next hout => exact dataByte_memWrite_outside d a n v i (by omega) hi h

/-- `dataByte_zero` in the spelling `simp` gives literals. -/
theorem dataByte_zeroLit (i : Nat) : dataByte 0#64 i = 0#8 := dataByte_zero i

theorem bytes_encIndication (x : Byte) (t : Word) :
    Bytes (encIndication x t).2 x (byteOf t 0) (byteOf t 1) (byteOf t 2) (byteOf t 3) 0 0 0 := by
  simp [Bytes, encIndication, byteOf, dataByte_memWrite, dataByte_zeroLit]

theorem bytes_encMeasured16 (x : Half) (t : Word) :
    Bytes (encMeasured16 x t).2 (x.extractLsb' 0 8) (x.extractLsb' 8 8)
      (byteOf t 0) (byteOf t 1) (byteOf t 2) (byteOf t 3) 0 0 := by
  simp [Bytes, encMeasured16, byteOf, dataByte_memWrite, dataByte_zeroLit]

theorem bytes_encValue32 (v : Word) :
    Bytes (encValue32 v).2 (byteOf v 0) (byteOf v 1) (byteOf v 2) (byteOf v 3) 0 0 0 0 := by
  simp [Bytes, encValue32, byteOf, dataByte_memWrite, dataByte_zeroLit]

theorem bytes_encSetPoint16 (x : Half) :
    Bytes (encSetPoint16 x).2 (x.extractLsb' 0 8) (x.extractLsb' 8 8) 0 0 0 0 0 0 := by
  simp [Bytes, encSetPoint16, dataByte_memWrite, dataByte_zeroLit]

/-! ### Decode: one equation for the eight classes on either side of the length test (41_codec.md R142) -/

/-- What `DEC.c` makes of a length and a payload: the 32-bit value and the timestamp, `none` for `MalformedFrame`. -/
def decodedFrame (c : MsgClass) (len : BitVec 4) (data : Payload) : Option (Word × Word) :=
  match c with
  | .si | .di => (decIndication len data).map fun r => (extState r.1, r.2)
  | .mv16 => (decMeasured16 len data).map fun r => (extHalf r.1, r.2)
  | .sc | .dc => (decCommand len data).map fun v => (extState v, 0)
  | .sp16 => (decSetPoint16 len data).map fun v => (extHalf v, 0)
  | .mv32 | .sp32 => (decValue32 len data).map fun v => (v, 0)

theorem exec_decodeInstr (c : MsgClass) (len : BitVec 4) (data : Payload) (s : State) :
    exec (decodeInstr c len data) s = .next (s.answerDec (decodedFrame c len data)) := by
  cases c <;> rfl

/-- The value and timestamp outputs of a `DEC.c` that succeeds, from the bytes of the payload. -/
def decodedFields (c : MsgClass) (data : Payload) : Word × Word :=
  match c with
  | .si | .di =>
    ((dataByte data 0).setWidth 32, dataByte data 4 ++ dataByte data 3 ++ dataByte data 2 ++ dataByte data 1)
  | .mv16 =>
    ((dataByte data 1 ++ dataByte data 0).signExtend 32,
      dataByte data 5 ++ dataByte data 4 ++ dataByte data 3 ++ dataByte data 2)
  | .sc | .dc => ((dataByte data 0).setWidth 32, 0)
  | .sp16 => ((dataByte data 1 ++ dataByte data 0).signExtend 32, 0)
  | .mv32 | .sp32 => (dataByte data 3 ++ dataByte data 2 ++ dataByte data 1 ++ dataByte data 0, 0)

theorem decodedFrame_of_short {c : MsgClass} {len : BitVec 4} (data : Payload) (h : len.toNat < requiredWidth c) :
    decodedFrame c len data = none := by
  cases c <;> exact congrArg (Option.map _) (if_pos h)

/-- Behind the length test, the fields that MemRead takes byte by byte. -/
theorem decodedFrame_of_long {c : MsgClass} {len : BitVec 4} (data : Payload) (h : requiredWidth c ≤ len.toNat) :
    decodedFrame c len data = some (decodedFields c data) := by
  have hlen : ¬ len.toNat < requiredWidth c := by omega
  cases c with
  | si | di => exact (congrArg (Option.map _) (if_neg hlen)).trans (by rw [memRead_four]; rfl)
  | mv16 => exact (congrArg (Option.map _) (if_neg hlen)).trans (by rw [memRead_two, memRead_four]; rfl)
  | sc | dc => exact congrArg (Option.map _) (if_neg hlen)
  | sp16 => exact (congrArg (Option.map _) (if_neg hlen)).trans (by rw [memRead_two]; rfl)
  | mv32 | sp32 => exact (congrArg (Option.map _) (if_neg hlen)).trans (by rw [memRead_four]; rfl)

theorem exec_decodeInstr_of_short (c : MsgClass) {len : BitVec 4} (data : Payload) (s : State)
    (h : len.toNat < requiredWidth c) :
    exec (decodeInstr c len data) s = .next { s with
      fresh := s.fresh + 1, out := [.decoded false (Config.freeValue s.fresh) (Config.freeStamp s.fresh)] } := by
  rw [exec_decodeInstr, decodedFrame_of_short data h]
  rfl

theorem exec_decodeInstr_of_long (c : MsgClass) {len : BitVec 4} (data : Payload) (s : State)
    (h : requiredWidth c ≤ len.toNat) :
    exec (decodeInstr c len data) s = .next { s with
      out := [.decoded true (decodedFields c data).1 (decodedFields c data).2] } := by
  rw [exec_decodeInstr, decodedFrame_of_long data h]
  rfl

/-! ### The encode statements -/

/-- Settles O21: the encode rule at the two Indication classes, with the bytes of their layout. -/
theorem encodeIndicationLayout : Obligations.EncodeIndicationLayout := by
  intro x t s l d
  have hx : (x.setWidth 32).setWidth 8 = x :=
    (BitVec.setWidth_setWidth_of_le x (by omega : 8 ≤ 32)).trans x.setWidth_eq
  generalize x.setWidth 32 = v at hx ⊢
  subst hx
  exact ⟨decode_encodeSelect .si v t l d, decode_encodeSelect .di v t l d,
    _, bytes_encIndication _ t, exec_encodeInstr .si v t s, exec_encodeInstr .di v t s⟩

/-- Settles O22: the encode rule at MV16; both extensions carry the value in the low half. -/
theorem encodeMeasured16Layout : Obligations.EncodeMeasured16Layout := by
  rintro x v t s l d hv
  obtain rfl := setWidth_of_extended hv
  exact ⟨decode_encodeSelect .mv16 v t l d, _, bytes_encMeasured16 _ t, exec_encodeInstr .mv16 v t s⟩

/-- Settles O23: the encode rule at the two 32-bit classes; their payload is made of the value alone. -/
theorem encodeValue32Layout : Obligations.EncodeValue32Layout :=
  fun v t s l d => ⟨decode_encodeSelect .mv32 v t l d, decode_encodeSelect .sp32 v t l d,
    _, bytes_encValue32 v, exec_encodeInstr .mv32 v t s, exec_encodeInstr .sp32 v t s⟩

/-- Settles O25: the encode rule at SP16; its payload is made of the value alone. -/
theorem encodeSetPoint16Layout : Obligations.EncodeSetPoint16Layout := by
  rintro x v t s l d hv
  obtain rfl := setWidth_of_extended hv
  exact ⟨decode_encodeSelect .sp16 v t l d, _, bytes_encSetPoint16 _, exec_encodeInstr .sp16 v t s⟩

/-! ### The decode statements: the premise that `len` is legal is not needed, the length test alone decides -/

/-- Settles O26: the decode rule at the two Indication classes, of width 5. -/
theorem decodeIndication : Obligations.DecodeIndication := by
  intro len data s v t _
  refine ⟨decode_decodeSelect .si v t len data, decode_decodeSelect .di v t len data, fun hshort => ?_, ?_⟩
  · exact ⟨_, _, _, exec_decodeInstr_of_short .si data s hshort, exec_decodeInstr_of_short .di data s hshort⟩
  · rintro hlong _ rfl
    exact ⟨exec_decodeInstr_of_long .si data s hlong, exec_decodeInstr_of_long .di data s hlong⟩

/-- Settles O27: the decode rule at MV16, of width 6. -/
theorem decodeMeasured16 : Obligations.DecodeMeasured16 := fun len data s v t _ =>
  ⟨decode_decodeSelect .mv16 v t len data,
   fun hshort => ⟨_, _, _, exec_decodeInstr_of_short .mv16 data s hshort⟩,
   fun hlong => exec_decodeInstr_of_long .mv16 data s hlong⟩

/-- Settles O28: the decode rule at the two 32-bit classes, of width 4. -/
theorem decodeValue32 : Obligations.DecodeValue32 := by
  intro len data s v t _
  refine ⟨decode_decodeSelect .mv32 v t len data, decode_decodeSelect .sp32 v t len data, fun hshort => ?_, ?_⟩
  · exact ⟨_, _, _, exec_decodeInstr_of_short .mv32 data s hshort, exec_decodeInstr_of_short .sp32 data s hshort⟩
  · rintro hlong _ rfl
    exact ⟨exec_decodeInstr_of_long .mv32 data s hlong, exec_decodeInstr_of_long .sp32 data s hlong⟩

/-- Settles O29: the decode rule at the two Command classes, of width 1. -/
theorem decodeCommand : Obligations.DecodeCommand := by
  intro len data s v t _
  refine ⟨decode_decodeSelect .sc v t len data, decode_decodeSelect .dc v t len data, ?_, ?_⟩
  · rintro rfl
    have hshort : (0 : BitVec 4).toNat < 1 := by decide
    exact ⟨_, _, _, exec_decodeInstr_of_short .sc data s hshort, exec_decodeInstr_of_short .dc data s hshort⟩
  · rintro hne _ rfl
    have hlong : 1 ≤ len.toNat := Nat.pos_of_ne_zero fun h => hne (BitVec.eq_of_toNat_eq h)
    exact ⟨exec_decodeInstr_of_long .sc data s hlong, exec_decodeInstr_of_long .dc data s hlong⟩

/-- Settles O30: the decode rule at SP16, of width 2. -/
theorem decodeSetPoint16 : Obligations.DecodeSetPoint16 := fun len data s v t _ =>
  ⟨decode_decodeSelect .sp16 v t len data,
   fun hshort => ⟨_, _, _, exec_decodeInstr_of_short .sp16 data s hshort⟩,
   fun hlong => exec_decodeInstr_of_long .sp16 data s hlong⟩

end Sys2Proof.Machine
end

