-- ==== Sys2Proof/Proofs/Writes.lean ====
section
/-! The application writes (42_write.md): the fixed bits of a command word, the common body APPLYWRITE (R180) said once
for the four classes; then the statements, each the common rule at its class. -/

open Sys2Proof.Machine.Says

namespace Sys2Proof

/-- A command word that agrees with `m` under the mask of `op` and `z` has the operation code and `z` of `m`
(30_encoding.md R81). -/
theorem app_fields_of_masked {w m : BitVec 48} (h : w &&& 0xFF0000000000 = m) :
    w.extractLsb' 44 4 = m.extractLsb' 44 4 ∧ w.extractLsb' 40 4 = m.extractLsb' 40 4 := by
  have hop : (0xFF0000000000 : BitVec 48).extractLsb' 44 4 = BitVec.allOnes 4 := by decide
  have hz : (0xFF0000000000 : BitVec 48).extractLsb' 40 4 = BitVec.allOnes 4 := by decide
  subst h
  simp only [BitVec.extractLsb'_and, hop, hz, BitVec.and_allOnes, and_self]

/-! ### The words of the four writes: `op` and `z` select, the word's own bits are the operands (30_encoding.md R82) -/

theorem decode_wrSi {w : BitVec 48} (h : w &&& 0xFF0000000000 = 0x100000000000) :
    decode (.app w) = .ok (.wrSi (w.extractLsb' 32 8) (w.extractLsb' 0 8)) := by
  simp only [decode, decodeApp, app_fields_of_masked h]
  rfl

theorem decode_wrDi {w : BitVec 48} (h : w &&& 0xFF0000000000 = 0x200000000000) :
    decode (.app w) = .ok (.wrDi (w.extractLsb' 32 8) (w.extractLsb' 0 8)) := by
  simp only [decode, decodeApp, app_fields_of_masked h]
  rfl

theorem decode_wrMv16 {w : BitVec 48} (h : w &&& 0xFF0000000000 = 0x300000000000) :
    decode (.app w) = .ok (.wrMv16 (w.extractLsb' 32 8) (w.extractLsb' 0 16)) := by
  simp only [decode, decodeApp, app_fields_of_masked h]
  rfl

theorem decode_wrMv32 {w : BitVec 48} (h : w &&& 0xFF0000000000 = 0x400000000000) :
    decode (.app w) = .ok (.wrMv32 (w.extractLsb' 32 8) (w.extractLsb' 0 32)) := by
  simp only [decode, decodeApp, app_fields_of_masked h]
  rfl

end Sys2Proof

namespace Sys2Proof.Machine

/-! ### APPLYWRITE (42_write.md R180): each branch in closed form, then its rule -/

/-- The frame that a write of class `c` enqueues. -/
def writtenFrame (c : MsgClass) (id : Identifier) (enc : BitVec 4 × Payload) : Frame :=
  { mt := c.code, id := id, len := enc.1, data := enc.2 }

theorem State.applyWrite_of_none {c : MsgClass} {idx : Index} {s : State} (store : State → State)
    (enc : BitVec 4 × Payload) (h : (idTable s.cfg c)[idx.toNat]? = none) :
    s.applyWrite c idx store enc = { s with out := [answer .badIndex 0] } := by
  rw [State.applyWrite, h]
  rfl

theorem State.applyWrite_of_some {c : MsgClass} {idx : Index} {store : State → State} {s : State} {cells : Cells}
    {id : Identifier} (enc : BitVec 4 × Payload) (h : (idTable s.cfg c)[idx.toNat]? = some id)
    (hstore : store s.start = { s.start with cells := cells }) :
    s.applyWrite c idx store enc = { s with
      cells := cells, txq := (s.txq.enq (writtenFrame c id enc)).1
      out := [answer (if (s.txq.enq (writtenFrame c id enc)).2 then .ok else .bufferFull) 0] } := by
  rw [State.applyWrite, h]
  exact (congrArg (State.enqueueAndAnswer _) hstore).trans (State.enqueueAndAnswer_eq _ _)

/-- The rule, for an operation `i` that is APPLYWRITE of class `c`, with a `store` that makes the cells `cells` and a
payload of the layout `layout`. -/
theorem exec_of_applyWrite {i : Instr} {c : MsgClass} {idx : Index} {store : State → State} {enc : BitVec 4 × Payload}
    {s : State} {cells : Cells} {layout : Payload → Prop} (hexec : exec i s = .next (s.applyWrite c idx store enc))
    (hstore : store s.start = { s.start with cells := cells }) (hlayout : layout enc.2) :
    ((idTable s.cfg c).length ≤ idx.toNat → exec i s = .next { s with out := [answer .badIndex 0] }) ∧
    ∀ id, (idTable s.cfg c)[idx.toNat]? = some id → ∀ written, written = cells →
      (s.txq.count = 10 → exec i s = .next { s with cells := written, out := [answer .bufferFull 0] }) ∧
      (s.txq.count ≠ 10 → ∃ (q : Txq) (d : Payload),
        exec i s = .next { s with cells := written, txq := q, out := [answer .ok 0] } ∧
        layout d ∧ Enqueued { mt := c.code, id := id, len := enc.1, data := d } s.txq q) := by
  refine ⟨fun hlen => ?_, ?_⟩
  · rw [hexec, State.applyWrite_of_none store enc (List.getElem?_eq_none hlen)]
  · rintro id hid _ rfl
    rw [hexec, State.applyWrite_of_some enc hid hstore]
    refine ⟨fun hfull => ?_, fun hroom => ?_⟩
    · rw [Txq.enq_full _ ((Txq.count_eq_ten_iff _).1 hfull)]
      rfl
    · rw [Ne, Txq.count_eq_ten_iff] at hroom
      refine ⟨_, enc.2, ?_, hlayout, Txq.enqueued_enq (writtenFrame c id enc) hroom⟩
      rw [(Txq.enq_room _ hroom).1]
      rfl

/-! ### The four writes as APPLYWRITE (42_write.md R181 to R184) -/

theorem exec_wrSi (idx : Index) (x : Byte) (s : State) : exec (.wrSi idx x) s = .next
    (s.applyWrite .si idx (State.setSi idx.toNat { state := x, ts := s.time }) (encIndication x s.time)) := rfl
theorem exec_wrDi (idx : Index) (x : Byte) (s : State) : exec (.wrDi idx x) s = .next
    (s.applyWrite .di idx (State.setDi idx.toNat { state := x, ts := s.time }) (encIndication x s.time)) := rfl
theorem exec_wrMv16 (idx : Index) (x : Half) (s : State) : exec (.wrMv16 idx x) s = .next
    (s.applyWrite .mv16 idx (State.setMv16 idx.toNat { value := x, ts := s.time }) (encMeasured16 x s.time)) := rfl
theorem exec_wrMv32 (idx : Index) (x : Word) (s : State) : exec (.wrMv32 idx x) s = .next
    (s.applyWrite .mv32 idx (State.setMv32 idx.toNat { value := x, ts := s.time }) (encValue32 x)) := rfl

/-! ### The statements -/

/-- Settles O33: the rule at SI, whose payload is the state byte and the Timestamp. -/
theorem writeSingleIndication : Obligations.WriteSingleIndication := by
  refine ⟨fun _ => decode_wrSi, fun idx x s => exec_of_applyWrite (exec_wrSi idx x s) rfl ?_⟩
  exact bytes_encIndication x s.time

/-- Settles O34: the rule at DI, whose payload is the state byte and the Timestamp. -/
theorem writeDoubleIndication : Obligations.WriteDoubleIndication := by
  refine ⟨fun _ => decode_wrDi, fun idx x s => exec_of_applyWrite (exec_wrDi idx x s) rfl ?_⟩
  exact bytes_encIndication x s.time

/-- Settles O35: the rule at MV16, whose payload is the value's two bytes and the Timestamp. -/
theorem writeMeasured16 : Obligations.WriteMeasured16 := by
  refine ⟨fun _ => decode_wrMv16, fun idx x s => exec_of_applyWrite (exec_wrMv16 idx x s) rfl ?_⟩
  exact bytes_encMeasured16 x s.time

/-- Settles O36: the rule at MV32, whose payload is the value's four bytes and no Timestamp. -/
theorem writeMeasured32 : Obligations.WriteMeasured32 := by
  refine ⟨fun _ => decode_wrMv32, fun idx x s => exec_of_applyWrite (exec_wrMv32 idx x s) rfl ?_⟩
  exact bytes_encValue32 x

end Sys2Proof.Machine
end

