-- ==== Sys2Proof/Proofs/CellWriters.lean ====
section
/-! Who changes an object cell (42_write.md R188): the one thing that each operation can do to the object cells, said once
as a relation; the statement reads the eight tables off it. -/

namespace Sys2Proof.Machine

/-- What operation `i` in state `s` can make of the object cells: nothing, or one cell of one table is set. A write sets
the addressed cell (42_write.md R180); a REFRESH with the slot occupied sets the matched cell of the frame's class
(43_rx_dispatch.md R211). -/
inductive CellsAfter (s : State) : Instr → Cells → Prop where
  | same (i : Instr) : CellsAfter s i s.cells
  | si (idx : Index) (x : Byte) : CellsAfter s (.wrSi idx x)
      { s.cells with si := s.cells.si.set idx.toNat { state := x, ts := s.time } }
  | di (idx : Index) (x : Byte) : CellsAfter s (.wrDi idx x)
      { s.cells with di := s.cells.di.set idx.toNat { state := x, ts := s.time } }
  | mv16 (idx : Index) (x : Half) : CellsAfter s (.wrMv16 idx x)
      { s.cells with mv16 := s.cells.mv16.set idx.toNat { value := x, ts := s.time } }
  | mv32 (idx : Index) (x : Word) : CellsAfter s (.wrMv32 idx x)
      { s.cells with mv32 := s.cells.mv32.set idx.toNat { value := x, ts := s.time } }
  | sc (k : Nat) : s.rxsOcc = true → s.rxsFrame.mt = 4 → s.cfg.idSc[k]? = some s.rxsFrame.id →
      CellsAfter s .refresh { s.cells with sc := s.cells.sc.set k (memRead s.rxsFrame.data 0 1) }
  | dc (k : Nat) : s.rxsOcc = true → s.rxsFrame.mt = 5 → s.cfg.idDc[k]? = some s.rxsFrame.id →
      CellsAfter s .refresh { s.cells with dc := s.cells.dc.set k (memRead s.rxsFrame.data 0 1) }
  | sp16 (k : Nat) : s.rxsOcc = true → s.rxsFrame.mt = 6 → s.cfg.idSp16[k]? = some s.rxsFrame.id →
      CellsAfter s .refresh { s.cells with sp16 := s.cells.sp16.set k (memRead s.rxsFrame.data 0 2) }
  | sp32 (k : Nat) : s.rxsOcc = true → s.rxsFrame.mt = 7 → s.cfg.idSp32[k]? = some s.rxsFrame.id →
      CellsAfter s .refresh { s.cells with sp32 := s.cells.sp32.set k (memRead s.rxsFrame.data 0 4) }

/-! ### What the shared operations do to the cells -/

@[simp] theorem State.raise_cells (e : Cause) (s : State) : (s.raise e).cells = s.cells := by
  cases e <;> rfl

@[simp] theorem State.receive_cells (f : Frame) (s : State) : (s.receive f).cells = s.cells := by
  rcases State.receive_cases f s with ⟨-, h⟩ | ⟨-, h⟩ <;> rw [h] <;> rfl

@[simp] theorem State.answerDec_cells (r : Option (Word × Word)) (s : State) : (s.answerDec r).cells = s.cells := by
  cases r <;> rfl

@[simp] theorem State.present_cells (s : State) : s.present.cells = s.cells := by
  rcases State.present_cases s with ⟨-, h⟩ | ⟨g, -, -, h⟩
  · rw [h]
  · rw [h]; rfl

/-- APPLYWRITE leaves the cells, or makes them what `store` does. -/
theorem State.applyWrite_cells (c : MsgClass) (idx : Index) (store : State → State) (enc : BitVec 4 × Payload)
    (s : State) :
    (s.applyWrite c idx store enc).cells = s.cells ∨ (s.applyWrite c idx store enc).cells = (store s.start).cells := by
  rcases State.applyWrite_cases c idx store enc s with ⟨-, h⟩ | ⟨id, -, h⟩
  · exact .inl (by rw [h]; rfl)
  · exact .inr (by rw [h, State.enqueueAndAnswer_eq])

/-- A write of a class leaves the cells or stores into them. -/
theorem CellsAfter.of_applyWrite {i : Instr} {s : State} {store : State → State} (c : MsgClass) (idx : Index)
    (enc : BitVec 4 × Payload) (h : CellsAfter s i (store s.start).cells) :
    CellsAfter s i (s.applyWrite c idx store enc).cells := by
  rcases State.applyWrite_cells c idx store enc s with heq | heq <;> rw [heq]
  · exact .same i
  · exact h

/-- The object whose cell DISPATCH sets has the frame's Identifier. -/
theorem idTable_of_lookup {c : Config} {mt : BitVec 3} {k : MsgClass} {id : Identifier} {j : Nat}
    (h : lookup c (MsgClass.ofCode mt) id = some j) (hmt : mt = k.code) : (idTable c k)[j]? = some id := by
  subst hmt
  rw [MsgClass.ofCode_code] at h
  exact (lookup_some.1 h).1

/-- Step 1 of REFRESH: only a matched frame of sufficient length sets a cell (43_rx_dispatch.md R205). -/
theorem CellsAfter.of_drain (s : State) : CellsAfter s .refresh s.start.drain.cells := by
  by_cases hocc : s.rxsOcc = true
  · have hdrain : s.start.drain = s.start.freeSlot.dispatch s.rxsFrame := if_pos hocc
    rw [hdrain]
    rcases State.dispatch_cases s.rxsFrame s.start.freeSlot with
      ⟨-, h⟩ | ⟨k, -, hk, ⟨-, h⟩ | ⟨-, ⟨hmt, h⟩ | ⟨hmt, h⟩ | ⟨hmt, h⟩ | ⟨hmt, h⟩⟩⟩ <;> rw [h]
    · exact .same _
    · exact .same _
    · exact .sc k hocc hmt (idTable_of_lookup (k := .sc) hk hmt)
    · exact .dc k hocc hmt (idTable_of_lookup (k := .dc) hk hmt)
    · exact .sp16 k hocc hmt (idTable_of_lookup (k := .sp16) hk hmt)
    · exact .sp32 k hocc hmt (idTable_of_lookup (k := .sp32) hk hmt)
  · have hdrain : s.start.drain = s.start := if_neg hocc
    rw [hdrain]
    exact .same _

/-! ### Every operation -/

/-- Everything that an operation can do to the object cells. -/
theorem exec_cellsAfter {i : Instr} {s t : State} (h : exec i s = .next t) : CellsAfter s i t.cells := by
  cases i with
  | wrSi idx x => cases h; exact .of_applyWrite _ _ _ (.si idx x)
  | wrDi idx x => cases h; exact .of_applyWrite _ _ _ (.di idx x)
  | wrMv16 idx x => cases h; exact .of_applyWrite _ _ _ (.mv16 idx x)
  | wrMv32 idx x => cases h; exact .of_applyWrite _ _ _ (.mv32 idx x)
  | refresh =>
    cases h
    rw [State.raise_cells, State.present_cells]
    exact .of_drain s
  | nop | rdStat | enq | commit => cases h; exact .same _
  | encSi | encDi | encMv16 | encMv32 | encSc | encDc | encSp16 | encSp32 => cases h; exact .same _
  | rdCnt sel =>
    simp only [exec, execRdCnt] at h
    split at h <;> cases h <;> exact .same _
  | sendComplete =>
    cases h
    split <;> exact .same _
  | peek =>
    simp only [exec, execPeek] at h
    split at h <;> cases h <;> exact .same _
  | decSi | decDi | decMv16 | decMv32 | decSc | decDc | decSp16 | decSp32 =>
    cases h
    rw [State.answerDec_cells]
    exact .same _
  | rx =>
    cases h
    rw [State.receive_cells]
    exact .same _
  | frameSi | frameDi | frameMv16 | frameMv32 | frameSc | frameDc | frameSp16 | frameSp32 =>
    cases h
    rw [State.receiveClass, State.receive_cells]
    exact .same _

/-! ### The statement -/

/-- Setting one cell changes no other. -/
theorem eq_of_getElem?_set_ne {α : Type} {l : List α} {j k : Nat} {v : α} (h : (l.set j v)[k]? ≠ l[k]?) : j = k := by
  by_contra hne
  exact h (List.getElem?_set_ne hne)

/-- Settles O37: of the things that an operation can do to the cells, one sets a cell of the table in question. -/
theorem cellsChangeOnlyByTheirOperation : Obligations.CellsChangeOnlyByTheirOperation := by
  intro i s t h
  have hcells : CellsAfter s i t.cells := exec_cellsAfter h
  generalize t.cells = c at hcells
  refine ⟨fun k hk => ?_, fun k hk => ?_, fun k hk => ?_, fun k hk => ?_,
    fun k hk => ?_, fun k hk => ?_, fun k hk => ?_, fun k hk => ?_⟩
  · cases hcells with
    | si idx x => exact ⟨idx, x, rfl, eq_of_getElem?_set_ne hk⟩
    | _ => exact absurd rfl hk
  · cases hcells with
    | di idx x => exact ⟨idx, x, rfl, eq_of_getElem?_set_ne hk⟩
    | _ => exact absurd rfl hk
  · cases hcells with
    | mv16 idx x => exact ⟨idx, x, rfl, eq_of_getElem?_set_ne hk⟩
    | _ => exact absurd rfl hk
  · cases hcells with
    | mv32 idx x => exact ⟨idx, x, rfl, eq_of_getElem?_set_ne hk⟩
    | _ => exact absurd rfl hk
  · cases hcells with
    | sc j hocc hmt hid => exact ⟨rfl, hocc, hmt, eq_of_getElem?_set_ne hk ▸ hid⟩
    | _ => exact absurd rfl hk
  · cases hcells with
    | dc j hocc hmt hid => exact ⟨rfl, hocc, hmt, eq_of_getElem?_set_ne hk ▸ hid⟩
    | _ => exact absurd rfl hk
  · cases hcells with
    | sp16 j hocc hmt hid => exact ⟨rfl, hocc, hmt, eq_of_getElem?_set_ne hk ▸ hid⟩
    | _ => exact absurd rfl hk
  · cases hcells with
    | sp32 j hocc hmt hid => exact ⟨rfl, hocc, hmt, eq_of_getElem?_set_ne hk ▸ hid⟩
    | _ => exact absurd rfl hk

end Sys2Proof.Machine
end

