-- ==== Sys2Proof/Proofs/RxDispatch.lean ====
section
/-! The inbound path (43_rx_dispatch.md): an arrival, the presentation step of REFRESH and DISPATCH in closed form; what a
REFRESH leaves, given what its DISPATCH does; then the statements, each one way DISPATCH can go. -/

open Sys2Proof.Machine.Says

namespace Sys2Proof.Machine

/-! ### An arrival (43_rx_dispatch.md R201) -/

/-- The clamp `min(len, 8)`, by the comparison the statements use. -/
theorem clampLen_eq (len : BitVec 4) : clampLen len = if len.toNat ≤ 8 then len else 8 := by
  simp only [clampLen, ← Nat.not_le, ite_not]

theorem Frame.stored_eq (f : Frame) :
    Frame.stored f = { mt := f.mt, id := f.id, len := (if f.len.toNat ≤ 8 then f.len else 8), data := f.data } := by
  rw [Frame.stored, clampLen_eq]

theorem State.receive_eq (f : Frame) (s : State) : s.receive f = arrived s f.mt f.id f.len f.data := by
  rcases State.receive_cases f s with ⟨hocc, h⟩ | ⟨hfree, h⟩
  · rw [h, arrived, if_pos hocc]
    rfl
  · rw [h, arrived, if_neg (by simp [hfree]), Frame.stored_eq]
    rfl

theorem exec_rx (f : Frame) (s : State) : exec (.rx f) s = .next (arrived s f.mt f.id f.len f.data) :=
  congrArg Host.Outcome.next (State.receive_eq f s)

/-! ### REFRESH around its DISPATCH (44_refresh_tx.md R230) -/

theorem presented_of_idle {s : State} (h : s.inflight = true ∨ s.txq.peek = none) :
    presented s = [] ∧ handedOver s = s.inflight := by
  rcases Txq.peek_cases s.txq with ⟨hempty, -⟩ | ⟨-, hpeek⟩
  · simp [presented, handedOver, hempty]
  · have hinflight : s.inflight = true := by simpa [hpeek] using h
    simp [presented, handedOver, hinflight]

theorem presented_of_head {s : State} {g : Frame} (hinflight : s.inflight = false) (hpeek : s.txq.peek = some g) :
    presented s = [.tx (TxPresentation.ofFrame g)] ∧ handedOver s = s.txAccept := by
  rcases Txq.peek_cases s.txq with ⟨-, hnone⟩ | ⟨hne, hhead⟩
  · simp [hnone] at hpeek
  · obtain rfl := Option.some.inj (hhead.symm.trans hpeek)
    simp [presented, handedOver, hinflight, hne, TxPresentation.ofFrame, Frame.wid]

/-- Step 2 in closed form (44_refresh_tx.md R232, R233, R235). -/
theorem State.present_eq (s : State) :
    s.present = { s with inflight := handedOver s, out := s.out ++ presented s } := by
  rcases State.present_cases s with ⟨hidle, h⟩ | ⟨g, hinflight, hpeek, h⟩
  · obtain ⟨hnothing, hkept⟩ := presented_of_idle hidle
    rw [h, hnothing, hkept, List.append_nil]
  · obtain ⟨hhead, haccepted⟩ := presented_of_head hinflight hpeek
    rw [h, hhead, haccepted]
    rfl

/-- What a REFRESH leaves, from what its DISPATCH made of the cells, the counters and the outputs. The slot is already free
when DISPATCH runs (44_refresh_tx.md R231). -/
theorem exec_refresh_of_dispatch {s : State} {cells : Cells} {cnt : Counters} {events : List Output}
    (hocc : s.rxsOcc = true)
    (h : s.start.freeSlot.dispatch s.rxsFrame =
      { s.start.freeSlot with cells := cells, cnt := cnt, out := events }) :
    exec .refresh s = .next (refreshed s cells cnt events) := by
  have hdrain : s.start.drain = { s.start.freeSlot with cells := cells, cnt := cnt, out := events } :=
    (if_pos hocc).trans h
  calc exec .refresh s
    _ = .next (s.start.drain.present.raise .ok) := rfl
    _ = .next (refreshed s cells cnt events) := by rw [hdrain, State.present_eq]; rfl

/-! ### The three ways of DISPATCH (43_rx_dispatch.md R205): which of `dispatch_cases` it is -/

/-- The direction of a class, by its code (30_encoding.md R84). -/
theorem inbound_iff (mt : BitVec 3) : inbound mt = true ↔ 4 ≤ mt.toNat := by
  rcases inbound_cases mt with ⟨hin, hlt, -⟩ | ⟨hin, ⟨rfl, -⟩ | ⟨rfl, -⟩ | ⟨rfl, -⟩ | ⟨rfl, -⟩⟩
  · simp [hin, hlt]
  all_goals decide

theorem State.dispatch_of_unmatched {f : Frame} {s : State}
    (h : f.mt.toNat < 4 ∨ f.id ∉ idTable s.cfg (MsgClass.ofCode f.mt)) :
    s.dispatch f = s.setCnt { s.cnt with unmatched := s.cnt.unmatched + 1 } := by
  rcases State.dispatch_cases f s with ⟨-, heq⟩ | ⟨i, hin, hlookup, -⟩
  · exact heq
  · rcases h with hout | habsent
    · have hge : 4 ≤ f.mt.toNat := (inbound_iff f.mt).1 hin
      omega
    · simp [lookup_none.2 habsent] at hlookup

theorem State.dispatch_of_short {f : Frame} {s : State} (hin : 4 ≤ f.mt.toNat)
    (hmem : f.id ∈ idTable s.cfg (MsgClass.ofCode f.mt))
    (hshort : f.len.toNat < requiredWidth (MsgClass.ofCode f.mt)) :
    s.dispatch f = s.setCnt { s.cnt with malformed := s.cnt.malformed + 1 } := by
  rcases State.dispatch_cases f s with ⟨hout | habsent, -⟩ | ⟨i, -, -, ⟨-, heq⟩ | ⟨hlong, -⟩⟩
  · simp [(inbound_iff f.mt).2 hin] at hout
  · exact absurd hmem habsent
  · exact heq
  · omega

/-- The cells after a frame of class `c` with payload `d` is delivered to object `i` (43_rx_dispatch.md R211); an outbound
class has no such delivery. -/
def deliveredCells (c : MsgClass) (i : Nat) (d : Payload) (cells : Cells) : Cells :=
  match c with
  | .sc => { cells with sc := cells.sc.set i (dataByte d 0) }
  | .dc => { cells with dc := cells.dc.set i (dataByte d 0) }
  | .sp16 => { cells with sp16 := cells.sp16.set i (dataByte d 1 ++ dataByte d 0) }
  | .sp32 =>
    { cells with sp32 := cells.sp32.set i (dataByte d 3 ++ dataByte d 2 ++ dataByte d 1 ++ dataByte d 0) }
  | .si | .di | .mv16 | .mv32 => cells

/-- The event carries the value output of the class's decode, whose timestamp is left out (43_rx_dispatch.md R212). -/
theorem State.dispatch_of_long {f : Frame} {s : State} {i : Nat} (hin : 4 ≤ f.mt.toNat)
    (hmatch : FirstMatch (idTable s.cfg (MsgClass.ofCode f.mt)) f.id i)
    (hlong : requiredWidth (MsgClass.ofCode f.mt) ≤ f.len.toNat) :
    s.dispatch f = { s with
      cells := deliveredCells (MsgClass.ofCode f.mt) i f.data s.cells
      out := s.out ++ [event f.mt i (decodedFields (MsgClass.ofCode f.mt) f.data).1] } := by
  have hlookup : lookup s.cfg (MsgClass.ofCode f.mt) f.id = some i := lookup_some.2 hmatch
  rcases State.dispatch_cases f s with ⟨hout | habsent, -⟩ | ⟨j, -, hj, ⟨hshort, -⟩ | ⟨-, hclass⟩⟩
  · simp [(inbound_iff f.mt).2 hin] at hout
  · simp [lookup_none.2 habsent] at hlookup
  · omega
  · obtain rfl : j = i := Option.some.inj (hj.symm.trans hlookup)
    rcases hclass with ⟨hmt, heq⟩ | ⟨hmt, heq⟩ | ⟨hmt, heq⟩ | ⟨hmt, heq⟩ <;> rw [heq, hmt]
    · rfl
    · rfl
    · rw [memRead_two]; rfl
    · rw [memRead_four]; rfl

/-- A REFRESH that delivers the frame of the slot, for an inbound class `c`. -/
theorem exec_refresh_of_delivered {s : State} {i : Nat} (c : MsgClass) (hin : 4 ≤ c.code.toNat)
    (hocc : s.rxsOcc = true) (hmt : s.rxsFrame.mt = c.code) (hmatch : FirstMatch (idTable s.cfg c) s.rxsFrame.id i)
    (hlong : requiredWidth c ≤ s.rxsFrame.len.toNat) :
    exec .refresh s = .next (refreshed s (deliveredCells c i s.rxsFrame.data s.cells) s.cnt
      [event c.code i (decodedFields c s.rxsFrame.data).1]) := by
  obtain rfl : MsgClass.ofCode s.rxsFrame.mt = c := by rw [hmt, MsgClass.ofCode_code]
  rw [MsgClass.code_ofCode] at hin ⊢
  exact exec_refresh_of_dispatch hocc (State.dispatch_of_long hin hmatch hlong)

/-! ### The statements -/

/-- Settles O39: the closed form of an arrival, on either side of `RXS_OCC`. -/
theorem receiveStoresOrCounts : Obligations.ReceiveStoresOrCounts := by
  refine ⟨fun w => rfl, fun f s => ⟨fun hocc => ?_, ?_⟩⟩
  · rw [exec_rx, arrived, if_pos hocc]
  · rintro hfree _ rfl
    rw [exec_rx, arrived, if_neg (by simp [hfree])]

/-- Settles O42: DISPATCH of a frame that has no table or is not in it, inside REFRESH. -/
theorem unmatchedFrameIsCountedAndDiscarded : Obligations.UnmatchedFrameIsCountedAndDiscarded :=
  fun _ hocc hunmatched => exec_refresh_of_dispatch hocc (State.dispatch_of_unmatched hunmatched)

/-- Settles O43: DISPATCH of a matched frame that is too short, inside REFRESH. -/
theorem malformedFrameIsCountedAndDiscarded : Obligations.MalformedFrameIsCountedAndDiscarded :=
  fun _ hocc hin hmem hshort => exec_refresh_of_dispatch hocc (State.dispatch_of_short hin hmem hshort)

/-- Settles O44: the rule of delivery at each of the four inbound classes. -/
theorem deliveredFrameUpdatesOneCellAndCallsBack : Obligations.DeliveredFrameUpdatesOneCellAndCallsBack := by
  rintro s i _ hocc rfl
  exact ⟨exec_refresh_of_delivered .sc (by decide) hocc, exec_refresh_of_delivered .dc (by decide) hocc,
    exec_refresh_of_delivered .sp16 (by decide) hocc, exec_refresh_of_delivered .sp32 (by decide) hocc⟩

end Sys2Proof.Machine
end

