-- ==== Sys2Proof/Proofs/SendComplete.lean ====
section
/-! SENDCOMPLETE (44_refresh_tx.md R236, R237): its next state in closed form on either side of `INFLIGHT`, then the
statement, which takes from COMMIT what became of the buffer. -/

namespace Sys2Proof.Machine

theorem exec_sendComplete_of_inflight {s : State} (h : s.inflight = true) :
    exec .sendComplete s = .next { s with txq := s.txq.commit, inflight := false, out := [] } :=
  congrArg Host.Outcome.next (if_pos h)

theorem exec_sendComplete_of_idle {s : State} (h : s.inflight = false) :
    exec .sendComplete s = .next { s with out := [] } :=
  congrArg Host.Outcome.next (if_neg (by simp [h]))

/-- Settles O49: by `INFLIGHT`; with a frame in flight the buffer changes as COMMIT on a non-empty buffer changes it. -/
theorem sendCompleteCommitsTheFrameInFlight : Obligations.SendCompleteCommitsTheFrameInFlight := by
  refine ⟨rfl, fun s => ⟨fun hinflight hne => ?_, exec_sendComplete_of_idle⟩⟩
  rw [Ne, Txq.count_eq_zero_iff] at hne
  exact ⟨s.txq.commit, exec_sendComplete_of_inflight hinflight, Txq.headRemoved_commit hne⟩

end Sys2Proof.Machine
end

