-- ==== Sys2Proof/Proofs/Status.lean ====
section
/-! The status operations and the reserved command words (45_status.md): the words that select them, the fields of the
status word, the counter that `sel` picks; then the statements. -/

open Sys2Proof.Machine.Says

namespace Sys2Proof

/-! ### The command words (30_encoding.md R81): `op` and `z` select, and a word that selects nothing is reserved -/

theorem decode_nop {w : BitVec 48} (h : w &&& 0xFF0000000000 = 0) : decode (.app w) = .ok .nop := by
  simp only [decode, decodeApp, app_fields_of_masked h]
  rfl

theorem decode_rdStat {w : BitVec 48} (h : w &&& 0xFF0000000000 = 0x600000000000) :
    decode (.app w) = .ok .rdStat := by
  simp only [decode, decodeApp, app_fields_of_masked h]
  rfl

theorem decode_rdCnt {w : BitVec 48} (h : w &&& 0xFF0000000000 = 0x700000000000) :
    decode (.app w) = .ok (.rdCnt (w.extractLsb' 32 8)) := by
  simp only [decode, decodeApp, app_fields_of_masked h]
  rfl

/-- The operation code of a command word matters only when `z` is 0. -/
theorem decode_app_of_reserved {w : BitVec 48} (h : 8 ≤ (w.extractLsb' 44 4).toNat ∨ w.extractLsb' 40 4 ≠ 0) :
    decode (.app w) = .error .badOp := by
  by_cases hz : w.extractLsb' 40 4 = 0
  · have hop : 8 ≤ (w.extractLsb' 44 4).toNat := h.resolve_right (not_not_intro hz)
    obtain ⟨n, hn⟩ := Nat.exists_eq_add_of_le' hop
    simp only [decode, decodeApp, hz, hn]
    rfl
  · exact if_pos hz

end Sys2Proof

namespace Sys2Proof.Machine

/-- A step whose word selects no operation (45_status.md R254, 30_encoding.md R98). -/
theorem step_of_rejected {s : State} {word : PortWord} {time : Word} {accept : Bool} {rest : List Stimulus} {r : Reject}
    (hpending : s.pending = .op word time accept :: rest) (hdecode : decode word = .error r) :
    step s = .next ((s.take time accept rest).reject r) := by
  simp only [step, hpending, hdecode]

/-! ### The status word (30_encoding.md R94): `COUNT` in the low four bits, a flag in each of the next four, the indices
above -/

theorem State.statWord_count (s : State) : s.statWord.extractLsb' 0 4 = BitVec.ofNat 4 s.txq.count.val :=
  (slice_append_low _ (BitVec.ofNat 4 s.txq.count.val) 0 4 (by omega)).trans (slice_all _)

theorem State.statWord_flags (s : State) :
    s.statWord.getLsbD 4 = s.txq.empty ∧ s.statWord.getLsbD 5 = s.txq.full ∧
    s.statWord.getLsbD 6 = s.inflight ∧ s.statWord.getLsbD 7 = s.rxsOcc := by
  simp only [State.statWord, BitVec.getLsbD_append]
  simp

/-- Above its low byte the status word is the two indices under zeros. -/
theorem State.statWord_upper (s : State) (k n : Nat) :
    s.statWord.extractLsb' (8 + k) n =
      ((0 : BitVec 16) ++ BitVec.ofNat 4 s.txq.tail.val ++ BitVec.ofNat 4 s.txq.head.val).extractLsb' k n := by
  have hbits : 8 + k = 4 + (1 + (1 + (1 + (1 + k)))) := by omega
  simp only [State.statWord, hbits, slice_append_high]

theorem State.statWord_head (s : State) : s.statWord.extractLsb' 8 4 = BitVec.ofNat 4 s.txq.head.val :=
  (s.statWord_upper 0 4).trans ((slice_append_low _ _ 0 4 (by omega)).trans (slice_all _))

theorem State.statWord_tail (s : State) : s.statWord.extractLsb' 12 4 = BitVec.ofNat 4 s.txq.tail.val :=
  (s.statWord_upper 4 4).trans ((slice_append_high _ (BitVec.ofNat 4 s.txq.head.val) 0 4).trans
    ((slice_append_low _ _ 0 4 (by omega)).trans (slice_all _)))

theorem State.statWord_zeros (s : State) : s.statWord.extractLsb' 16 16 = 0 :=
  (s.statWord_upper 8 16).trans ((slice_append_high _ (BitVec.ofNat 4 s.txq.head.val) 4 16).trans
    ((slice_append_high _ (BitVec.ofNat 4 s.txq.tail.val) 0 16).trans (slice_all _)))

/-- `COUNT`, `HEAD` and `TAIL` fit in four bits. -/
theorem toNat_ofNat_four_fin {n : Nat} (i : Fin n) (h : n ≤ 16) : (BitVec.ofNat 4 i.val).toNat = i.val :=
  Nat.mod_eq_of_lt (i.isLt.trans_le h)

/-! ### The operations in closed form -/

theorem exec_nop (s : State) : exec .nop s = .next { s with out := [answer .ok 0] } := rfl

theorem exec_rdStat (s : State) : exec .rdStat s = .next { s with out := [answer .ok s.statWord] } := rfl

theorem exec_rdCnt_of_some {sel : Index} {s : State} {v : Word} (h : s.cnt.select sel = some v) :
    exec (.rdCnt sel) s = .next { s with out := [answer .ok v] } := by
  simp only [exec, execRdCnt, h]
  rfl

theorem exec_rdCnt_of_none {sel : Index} {s : State} (h : s.cnt.select sel = none) :
    exec (.rdCnt sel) s = .next { s with out := [answer .badIndex 0] } := by
  simp only [exec, execRdCnt, h]
  rfl

/-- There are three counters (30_encoding.md R95). -/
theorem Counters.select_of_ge {sel : Index} (c : Counters) (h : 3 ≤ sel.toNat) : c.select sel = none := by
  obtain ⟨n, hn⟩ := Nat.exists_eq_add_of_le' h
  simp only [Counters.select, hn]

/-! ### The statements -/

/-- Settles O52: RD_STAT answers the status word, whose slices are the registers and flags. -/
theorem statusWordShowsTheFlags : Obligations.StatusWordShowsTheFlags := by
  refine ⟨fun _ => decode_rdStat, fun s => ⟨s.statWord, exec_rdStat s, ?_⟩⟩
  obtain ⟨hempty, hfull, hinflight, hocc⟩ := s.statWord_flags
  rw [s.statWord_count, s.statWord_head, s.statWord_tail, hempty, hfull, Txq.count_eq_zero_iff, Txq.count_eq_ten_iff]
  exact ⟨toNat_ofNat_four_fin _ (by decide), s.txq.empty_iff, s.txq.full_iff, hinflight, hocc,
    toNat_ofNat_four_fin _ (by decide), toNat_ofNat_four_fin _ (by decide), s.statWord_zeros⟩

/-- Settles O8: a reserved word is rejected as `badOp`, which is answered and no more. -/
theorem reservedWordAnswersBadOp : Obligations.ReservedWordAnswersBadOp :=
  fun _ _ _ _ _ hpending hreserved => step_of_rejected hpending (decode_app_of_reserved hreserved)

/-- Settles O51: the word of NOP and its closed form. -/
theorem nopAnswersOk : Obligations.NopAnswersOk := ⟨fun _ => decode_nop, exec_nop⟩

/-- Settles O53: the selects 0, 1 and 2 pick a counter, the others pick none. -/
theorem counterReadOrBadIndex : Obligations.CounterReadOrBadIndex := by
  refine ⟨fun _ => decode_rdCnt, fun sel s =>
    ⟨?_, ?_, ?_, fun hsel => exec_rdCnt_of_none (s.cnt.select_of_ge hsel)⟩⟩
  all_goals
    rintro rfl
    exact exec_rdCnt_of_some rfl

end Sys2Proof.Machine
end

