-- ==== Sys2Proof/Proofs/Encoding.lean ====
section
/-! Decoding and encoding (30_encoding.md), each format said once: the command word under a mask, the arrival that a wire
identifier names; then the round trip of every instruction, the used bits of a command word, and the spec's words. -/

namespace Sys2Proof

/-! ### The command word under a mask (30_encoding.md R81, R97) -/

/-- A command word is its four fields. -/
theorem app_eq_fields (w : BitVec 48) :
    w = w.extractLsb' 44 4 ++ w.extractLsb' 40 4 ++ w.extractLsb' 32 8 ++ w.extractLsb' 0 32 := by
  rw [BitVec.extractLsb'_append_extractLsb'_eq_extractLsb' (show 44 = 40 + 4 from rfl),
    BitVec.extractLsb'_append_extractLsb'_eq_extractLsb' (show 40 = 32 + 8 from rfl),
    BitVec.extractLsb'_append_extractLsb'_eq_extractLsb' (show 32 = 0 + 32 from rfl)]
  exact (slice_all w).symm

/-- The mask that keeps `op` and `z`, and of the other two fields the bits of `mi` and `mx`. -/
def appMask (mi : Index) (mx : Word) : BitVec 48 := BitVec.allOnes 4 ++ BitVec.allOnes 4 ++ mi ++ mx

theorem and_appMask (w : BitVec 48) (mi : Index) (mx : Word) :
    w &&& appMask mi mx =
      w.extractLsb' 44 4 ++ w.extractLsb' 40 4 ++ (w.extractLsb' 32 8 &&& mi) ++ (w.extractLsb' 0 32 &&& mx) := by
  conv => lhs; rw [app_eq_fields w]
  exact BitVec.and_append.trans (by simp only [BitVec.and_append, BitVec.and_allOnes])

/-- Under the mask a word of operation code `op` is the command word of the fields under theirs. -/
theorem appWord_of_fields {w : BitVec 48} {op : BitVec 4} (hop : (w.extractLsb' 44 4).toNat = op.toNat)
    (hz : w.extractLsb' 40 4 = 0) (mi : Index) (mx : Word) :
    appWord op (w.extractLsb' 32 8 &&& mi) (w.extractLsb' 0 32 &&& mx) = .app (w &&& appMask mi mx) := by
  rw [and_appMask, hz, BitVec.eq_of_toNat_eq hop]
  rfl

theorem appBits_and_mask (op : BitVec 4) (idx : Index) (operand : Word) :
    appBits op idx operand &&& 0xFF0000000000 = appBits op 0 0 := by
  have hmask : (0xFF0000000000 : BitVec 48) = appMask 0#8 0#32 := by decide
  rw [hmask, and_appMask, appBits_op, appBits_z, BitVec.and_zero, BitVec.and_zero]
  rfl

/-- The operand's low `n` bits, widened again, are the operand under the mask of `n` ones. -/
theorem setWidth_slice (w : BitVec 48) (n : Nat) :
    (w.extractLsb' 0 n).setWidth 32 = w.extractLsb' 0 32 &&& (BitVec.allOnes n).setWidth 32 := by
  ext i hi
  by_cases h : i < n <;> simp [h]

/-! ### Decoding of command words -/

theorem decode_refresh {w : BitVec 48} (h : w &&& 0xFF0000000000 = 0x500000000000) :
    decode (.app w) = .ok .refresh := by
  simp only [decode, decodeApp, app_fields_of_masked h]
  rfl

/-! The masks of `usedAppBits`, by their fields: no operand, the index alone, an operand of 8, 16 or 32 bits. -/

theorem appMask_none : (0xFF0000000000 : BitVec 48) = appMask 0#8 0#32 := by decide
theorem appMask_idx : (0xFFFF00000000 : BitVec 48) = appMask (BitVec.allOnes 8) 0#32 := by decide
theorem appMask_byte : (0xFFFF000000FF : BitVec 48) = appMask (BitVec.allOnes 8) ((BitVec.allOnes 8).setWidth 32) := by
  decide
theorem appMask_half : (0xFFFF0000FFFF : BitVec 48) = appMask (BitVec.allOnes 8) ((BitVec.allOnes 16).setWidth 32) := by
  decide
theorem appMask_word : (0xFFFFFFFFFFFF : BitVec 48) = appMask (BitVec.allOnes 8) (BitVec.allOnes 32) := by
  decide

/-- A command word that decodes is, on the bits its operation uses, the word of the operation. -/
theorem encode_of_decode_app {w : BitVec 48} {i : Instr} (h : decode (.app w) = .ok i) :
    encode i = .app (w &&& i.usedAppBits) := by
  have hz : w.extractLsb' 40 4 = 0 := by
    by_contra hz
    rw [decode_app_of_reserved (.inr hz)] at h
    cases h
  simp only [decode, decodeApp, hz, ne_eq, not_true_eq_false, if_false] at h
  split at h <;> cases h <;> simp only [encode, Instr.usedAppBits]
  next hop => rw [appMask_none, ← appWord_of_fields (op := 0) hop hz, BitVec.and_zero, BitVec.and_zero]; rfl
  next hop => rw [appMask_byte, ← appWord_of_fields (op := 1) hop hz, ← setWidth_slice, BitVec.and_allOnes]
  next hop => rw [appMask_byte, ← appWord_of_fields (op := 2) hop hz, ← setWidth_slice, BitVec.and_allOnes]
  next hop => rw [appMask_half, ← appWord_of_fields (op := 3) hop hz, ← setWidth_slice, BitVec.and_allOnes]
  next hop => rw [appMask_word, ← appWord_of_fields (op := 4) hop hz, BitVec.and_allOnes, BitVec.and_allOnes]
  next hop => rw [appMask_none, ← appWord_of_fields (op := 5) hop hz, BitVec.and_zero, BitVec.and_zero]; rfl
  next hop => rw [appMask_none, ← appWord_of_fields (op := 6) hop hz, BitVec.and_zero, BitVec.and_zero]; rfl
  next hop => rw [appMask_idx, ← appWord_of_fields (op := 7) hop hz, BitVec.and_zero, BitVec.and_allOnes]; rfl

/-- Equal concatenations have equal parts. -/
theorem append_inj {a b : Nat} {x x' : BitVec a} {y y' : BitVec b} (h : x ++ y = x' ++ y') : x = x' ∧ y = y' := by
  constructor
  · calc x = (x ++ y).extractLsb' b a := ((slice_append_high x y 0 a).trans (slice_all x)).symm
      _ = (x' ++ y').extractLsb' b a := by rw [h]
      _ = x' := (slice_append_high x' y' 0 a).trans (slice_all x')
  · calc y = (x ++ y).extractLsb' 0 b := ((slice_append_low x y 0 b (by omega)).trans (slice_all y)).symm
      _ = (x' ++ y').extractLsb' 0 b := by rw [h]
      _ = y' := (slice_append_low x' y' 0 b (by omega)).trans (slice_all y')

/-- What a word keeps under a mask fixes its operation code and, under their own masks, the other two fields. -/
theorem fields_of_masked {w : BitVec 48} {op : BitVec 4} {idx mi : Index} {operand mx : Word}
    (h : appWord op idx operand = .app (w &&& appMask mi mx)) :
    w &&& 0xFF0000000000 = appBits op 0 0 ∧ idx = w.extractLsb' 32 8 &&& mi ∧ operand = w.extractLsb' 0 32 &&& mx := by
  have hword : appBits op idx operand = w &&& appMask mi mx := PortWord.app.inj h
  rw [and_appMask] at hword
  obtain ⟨hupper, hoperand⟩ := append_inj hword
  obtain ⟨hselect, hidx⟩ := append_inj hupper
  obtain ⟨hop, hz⟩ := append_inj hselect
  refine ⟨?_, hidx, hoperand⟩
  rw [appMask_none, and_appMask, ← hop, ← hz, BitVec.and_zero, BitVec.and_zero]
  rfl

/-- An operand of `n` bits that the encoder widened is the operand field's low `n` bits. -/
theorem operand_of_masked {w : BitVec 48} {n : Nat} {x : BitVec n} (hn : n ≤ 32)
    (h : x.setWidth 32 = w.extractLsb' 0 32 &&& (BitVec.allOnes n).setWidth 32) : x = w.extractLsb' 0 n :=
  calc x = (x.setWidth 32).extractLsb' 0 n := (slice_setWidth x hn).symm
    _ = ((w.extractLsb' 0 n).setWidth 32).extractLsb' 0 n := by rw [h, setWidth_slice]
    _ = w.extractLsb' 0 n := slice_setWidth _ hn

/-- A word with the bits of an operation on those that the operation uses decodes to it. -/
theorem decode_app_of_encode {w : BitVec 48} {i : Instr} (h : encode i = .app (w &&& i.usedAppBits)) :
    decode (.app w) = .ok i := by
  cases i with
  | nop =>
    obtain ⟨hw, -⟩ := fields_of_masked (h.trans (by rw [Instr.usedAppBits, appMask_none]))
    exact decode_nop (hw.trans (by decide))
  | wrSi idx x =>
    obtain ⟨hw, rfl, hx⟩ := fields_of_masked (h.trans (by rw [Instr.usedAppBits, appMask_byte]))
    rw [decode_wrSi (hw.trans (by decide)), BitVec.and_allOnes, operand_of_masked (by omega) hx]
  | wrDi idx x =>
    obtain ⟨hw, rfl, hx⟩ := fields_of_masked (h.trans (by rw [Instr.usedAppBits, appMask_byte]))
    rw [decode_wrDi (hw.trans (by decide)), BitVec.and_allOnes, operand_of_masked (by omega) hx]
  | wrMv16 idx x =>
    obtain ⟨hw, rfl, hx⟩ := fields_of_masked (h.trans (by rw [Instr.usedAppBits, appMask_half]))
    rw [decode_wrMv16 (hw.trans (by decide)), BitVec.and_allOnes, operand_of_masked (by omega) hx]
  | wrMv32 idx x =>
    obtain ⟨hw, rfl, rfl⟩ := fields_of_masked (h.trans (by rw [Instr.usedAppBits, appMask_word]))
    rw [decode_wrMv32 (hw.trans (by decide)), BitVec.and_allOnes, BitVec.and_allOnes]
  | refresh =>
    obtain ⟨hw, -⟩ := fields_of_masked (h.trans (by rw [Instr.usedAppBits, appMask_none]))
    exact decode_refresh (hw.trans (by decide))
  | rdStat =>
    obtain ⟨hw, -⟩ := fields_of_masked (h.trans (by rw [Instr.usedAppBits, appMask_none]))
    exact decode_rdStat (hw.trans (by decide))
  | rdCnt sel =>
    obtain ⟨hw, rfl, -⟩ := fields_of_masked (h.trans (by rw [Instr.usedAppBits, appMask_idx]))
    rw [decode_rdCnt (hw.trans (by decide)), BitVec.and_allOnes]
  | rx | sendComplete | enq | peek | commit => nomatch h
  | encSi | encDi | encMv16 | encMv32 | encSc | encDc | encSp16 | encSp32 => nomatch h
  | decSi | decDi | decMv16 | decMv32 | decSc | decDc | decSp16 | decSp32 => nomatch h
  | frameSi | frameDi | frameMv16 | frameMv32 | frameSc | frameDc | frameSp16 | frameSp32 => nomatch h

/-- Settles O3: the two directions of "the word's used bits are the operation's word". -/
theorem appWordIsItsUsedBits : Obligations.AppWordIsItsUsedBits := by
  intro w i h
  have hused : encode i = .app (w &&& i.usedAppBits) := encode_of_decode_app h
  exact ⟨hused, fun w' hw' => decode_app_of_encode (by rw [hw', hused])⟩

/-- Settles O1: each word is decoded by the decoder of its format. -/
theorem specWordsDecodeToTheirOperations : Obligations.SpecWordsDecodeToTheirOperations :=
  ⟨rfl, rfl, rfl, rfl, rfl, rfl, rfl, rfl, rfl, rfl, rfl, rfl, rfl, rfl, rfl⟩

/-! ### Arrivals: one instruction for the eight classes (30_encoding.md R102) -/

/-- The arrival of a frame of class `c`. -/
def arrivalInstr (c : MsgClass) (id : Identifier) (len : BitVec 4) (data : Payload) : Instr :=
  match c with
  | .si => .frameSi id len data
  | .di => .frameDi id len data
  | .mv16 => .frameMv16 id len data
  | .mv32 => .frameMv32 id len data
  | .sc => .frameSc id len data
  | .dc => .frameDc id len data
  | .sp16 => .frameSp16 id len data
  | .sp32 => .frameSp32 id len data

theorem decode_wid (w : BitVec 11) (len : BitVec 4) (data : Payload) :
    decode (.wid w len data) =
      .ok (arrivalInstr (MsgClass.ofCode (w.extractLsb' 8 3)) (w.extractLsb' 0 8) len data) := by
  cases hc : MsgClass.ofCode (w.extractLsb' 8 3) <;> simp only [decode, decodeWid, arrivalInstr, hc]

theorem decode_widWord (c : MsgClass) (id : Identifier) (len : BitVec 4) (data : Payload) :
    decode (widWord c id len data) = .ok (arrivalInstr c id len data) := by
  rw [widWord_eq, decode_wid, widBits_mt, widBits_id, MsgClass.ofCode_code]

/-! ### The round trip -/

/-- Settles O2: by the format of the instruction's word. -/
theorem decodeOfEncodeIsTheInstruction : Obligations.DecodeOfEncodeIsTheInstruction := by
  intro i
  cases i with
  | nop => exact decode_nop (appBits_and_mask 0 0 0)
  | wrSi idx x => exact (decode_wrSi (appBits_and_mask 1 idx _)).trans (by
      rw [appBits_idx, appBits_operand _ _ _ _ (by omega), slice_setWidth x (by omega)])
  | wrDi idx x => exact (decode_wrDi (appBits_and_mask 2 idx _)).trans (by
      rw [appBits_idx, appBits_operand _ _ _ _ (by omega), slice_setWidth x (by omega)])
  | wrMv16 idx x => exact (decode_wrMv16 (appBits_and_mask 3 idx _)).trans (by
      rw [appBits_idx, appBits_operand _ _ _ _ (by omega), slice_setWidth x (by omega)])
  | wrMv32 idx x => exact (decode_wrMv32 (appBits_and_mask 4 idx x)).trans (by
      rw [appBits_idx, appBits_operand _ _ _ _ (by omega), slice_all])
  | refresh => exact decode_refresh (appBits_and_mask 5 0 0)
  | rdStat => exact decode_rdStat (appBits_and_mask 6 0 0)
  | rdCnt sel => exact (decode_rdCnt (appBits_and_mask 7 sel 0)).trans (by rw [appBits_idx])
  | rx f => exact congrArg (fun g => Except.ok (Instr.rx g)) f.ofWord_word
  | enq f => exact congrArg (fun g => Except.ok (Instr.enq g)) f.ofWord_word
  | sendComplete | peek | commit => rfl
  | encSi v t => exact Machine.decode_encodeSelect .si v t 0 0
  | encDi v t => exact Machine.decode_encodeSelect .di v t 0 0
  | encMv16 v t => exact Machine.decode_encodeSelect .mv16 v t 0 0
  | encMv32 v t => exact Machine.decode_encodeSelect .mv32 v t 0 0
  | encSc v t => exact Machine.decode_encodeSelect .sc v t 0 0
  | encDc v t => exact Machine.decode_encodeSelect .dc v t 0 0
  | encSp16 v t => exact Machine.decode_encodeSelect .sp16 v t 0 0
  | encSp32 v t => exact Machine.decode_encodeSelect .sp32 v t 0 0
  | decSi len d => exact Machine.decode_decodeSelect .si 0 0 len d
  | decDi len d => exact Machine.decode_decodeSelect .di 0 0 len d
  | decMv16 len d => exact Machine.decode_decodeSelect .mv16 0 0 len d
  | decMv32 len d => exact Machine.decode_decodeSelect .mv32 0 0 len d
  | decSc len d => exact Machine.decode_decodeSelect .sc 0 0 len d
  | decDc len d => exact Machine.decode_decodeSelect .dc 0 0 len d
  | decSp16 len d => exact Machine.decode_decodeSelect .sp16 0 0 len d
  | decSp32 len d => exact Machine.decode_decodeSelect .sp32 0 0 len d
  | frameSi id len d => exact decode_widWord .si id len d
  | frameDi id len d => exact decode_widWord .di id len d
  | frameMv16 id len d => exact decode_widWord .mv16 id len d
  | frameMv32 id len d => exact decode_widWord .mv32 id len d
  | frameSc id len d => exact decode_widWord .sc id len d
  | frameDc id len d => exact decode_widWord .dc id len d
  | frameSp16 id len d => exact decode_widWord .sp16 id len d
  | frameSp32 id len d => exact decode_widWord .sp32 id len d

end Sys2Proof
end

