-- ==== Sys2Proof/Proofs/Operations.lean ====
section
/-! Everything an operation can do, said once as a relation between the state, the operation and the next state; what
follows for a step and for a run. -/

open Sys2Proof.Machine.Says

namespace Sys2Proof.Machine

/-! ### The inbound half of REFRESH (43_rx_dispatch.md R205, 44_refresh_tx.md R230) -/

/-- What step 1 of REFRESH can make of the cells, the counters and the outputs. -/
inductive Drained (s : State) : Cells → Counters → List Output → Prop where
  | free : s.rxsOcc = false → Drained s s.cells s.cnt []
  | unmatched : s.rxsOcc = true → Drained s s.cells { s.cnt with unmatched := s.cnt.unmatched + 1 } []
  | malformed : s.rxsOcc = true → Drained s s.cells { s.cnt with malformed := s.cnt.malformed + 1 } []
  | delivered (i : Nat) (value : Word) : s.rxsOcc = true → 4 ≤ s.rxsFrame.mt.toNat →
      FirstMatch (idTable s.cfg (MsgClass.ofCode s.rxsFrame.mt)) s.rxsFrame.id i →
      Drained s (deliveredCells (MsgClass.ofCode s.rxsFrame.mt) i s.rxsFrame.data s.cells) s.cnt
        [event s.rxsFrame.mt i value]

theorem exec_refresh_of_free {s : State} (h : s.rxsOcc = false) :
    exec .refresh s = .next (refreshed s s.cells s.cnt []) := by
  have hdrain : s.start.drain = s.start := if_neg (by simp [h])
  calc exec .refresh s
    _ = .next (s.start.drain.present.raise .ok) := rfl
    _ = .next (refreshed s s.cells s.cnt []) := by rw [hdrain, State.present_eq, refreshed, ← h]; rfl

/-- Every REFRESH leaves what its inbound half made, the presentation and the answer `OK`; the inbound half looks at neither
input pin (10_state.md R39, R40). -/
theorem exec_refresh_at_levels (s : State) :
    ∃ cells cnt events, Drained s cells cnt events ∧ ∀ time accept,
      exec .refresh { s with time := time, txAccept := accept } =
        .next (refreshed { s with time := time, txAccept := accept } cells cnt events) := by
  by_cases hocc : s.rxsOcc = true
  · by_cases hunmatched :
        s.rxsFrame.mt.toNat < 4 ∨ s.rxsFrame.id ∉ idTable s.cfg (MsgClass.ofCode s.rxsFrame.mt)
    · exact ⟨_, _, _, .unmatched hocc, fun _ _ =>
        exec_refresh_of_dispatch hocc (State.dispatch_of_unmatched hunmatched)⟩
    · obtain ⟨hin, hmem⟩ : 4 ≤ s.rxsFrame.mt.toNat ∧ s.rxsFrame.id ∈ idTable s.cfg (MsgClass.ofCode s.rxsFrame.mt) := by
        simpa [not_or] using hunmatched
      by_cases hshort : s.rxsFrame.len.toNat < requiredWidth (MsgClass.ofCode s.rxsFrame.mt)
      · exact ⟨_, _, _, .malformed hocc, fun _ _ =>
          exec_refresh_of_dispatch hocc (State.dispatch_of_short hin hmem hshort)⟩
      · obtain ⟨i, hi⟩ : ∃ i, lookup s.cfg (MsgClass.ofCode s.rxsFrame.mt) s.rxsFrame.id = some i :=
          Option.ne_none_iff_exists'.1 fun hnone => lookup_none.1 hnone hmem
        have hmatch := lookup_some.1 hi
        exact ⟨_, _, _, .delivered i _ hocc hin hmatch, fun _ _ =>
          exec_refresh_of_dispatch hocc (State.dispatch_of_long hin hmatch (by omega))⟩
  · have hfree : s.rxsOcc = false := by simpa using hocc
    exact ⟨_, _, _, .free hfree, fun _ _ => exec_refresh_of_free hfree⟩

theorem exec_refresh_drained (s : State) :
    ∃ cells cnt events, exec .refresh s = .next (refreshed s cells cnt events) ∧ Drained s cells cnt events := by
  obtain ⟨cells, cnt, events, hdrained, hexec⟩ := exec_refresh_at_levels s
  exact ⟨cells, cnt, events, hexec s.time s.txAccept, hdrained⟩

/-- A REFRESH emits at most one callback event, and only if the slot was occupied (43_rx_dispatch.md R212). -/
theorem Drained.events_cases {s : State} {cells : Cells} {cnt : Counters} {events : List Output}
    (h : Drained s cells cnt events) : events = [] ∨ ∃ c, events = [.cb c] ∧ s.rxsOcc = true := by
  cases h with
  | free | unmatched | malformed => exact .inl rfl
  | delivered i value hocc => exact .inr ⟨_, rfl, hocc⟩

/-- A REFRESH presents at most one frame: the head, when it is not with the driver already (44_refresh_tx.md R232). -/
theorem presented_cases (s : State) :
    presented s = [] ∨
    ∃ g, presented s = [.tx (TxPresentation.ofFrame g)] ∧ s.inflight = false ∧ s.txq.peek = some g := by
  by_cases hidle : s.inflight = true ∨ s.txq.peek = none
  · exact .inl (presented_of_idle hidle).1
  · obtain ⟨hinflight, hpeek⟩ := not_or.1 hidle
    rw [Bool.not_eq_true] at hinflight
    obtain ⟨g, hg⟩ := Option.ne_none_iff_exists'.1 hpeek
    exact .inr ⟨g, (presented_of_head hinflight hg).1, hinflight, hg⟩

/-! ### Arrivals: the registers they leave (43_rx_dispatch.md R201) -/

section
variable (s : State) (mt : BitVec 3) (id : Identifier) (len : BitVec 4) (data : Payload)

theorem arrived_of_occupied (h : s.rxsOcc = true) :
    arrived s mt id len data = { s with cnt := { s.cnt with inovf := s.cnt.inovf + 1 }, out := [] } := if_pos h

theorem arrived_of_free (h : s.rxsOcc = false) :
    arrived s mt id len data = { s with
      rxsOcc := true, out := []
      rxsFrame := { mt := mt, id := id, len := (if len.toNat ≤ 8 then len else 8), data := data } } :=
  if_neg (by simp [h])

@[simp] theorem arrived_txq : (arrived s mt id len data).txq = s.txq := by unfold arrived; split <;> rfl
@[simp] theorem arrived_inflight : (arrived s mt id len data).inflight = s.inflight := by unfold arrived; split <;> rfl
@[simp] theorem arrived_rxsOcc : (arrived s mt id len data).rxsOcc = true := by
  unfold arrived; split
  · assumption
  · rfl
@[simp] theorem arrived_cells : (arrived s mt id len data).cells = s.cells := by unfold arrived; split <;> rfl
@[simp] theorem arrived_cfg : (arrived s mt id len data).cfg = s.cfg := by unfold arrived; split <;> rfl
@[simp] theorem arrived_out : (arrived s mt id len data).out = [] := by unfold arrived; split <;> rfl
@[simp] theorem arrived_time : (arrived s mt id len data).time = s.time := by unfold arrived; split <;> rfl
@[simp] theorem arrived_txAccept : (arrived s mt id len data).txAccept = s.txAccept := by unfold arrived; split <;> rfl
@[simp] theorem arrived_pending : (arrived s mt id len data).pending = s.pending := by unfold arrived; split <;> rfl

end

/-- An arrival of any class is `RX` of its frame (30_encoding.md R101). -/
theorem exec_arrivalInstr (c : MsgClass) (id : Identifier) (len : BitVec 4) (data : Payload) (s : State) :
    exec (arrivalInstr c id len data) s = .next (arrived s c.code id len data) := by
  rw [← State.receive_eq { mt := c.code, id := id, len := len, data := data } s]
  cases c <;> rfl

/-! ### Every operation -/

/-- An output of an internal select (30_encoding.md R96). -/
def ofSelect : Output → Prop
  | .txqOk _ => True
  | .txqFrame _ _ => True
  | .encoded _ _ => True
  | .decoded _ _ _ => True
  | _ => False

/-- Everything that an operation can do to a state. What a write makes of the cells is said by `CellsAfter`. -/
inductive Effect (s : State) : Instr → State → Prop where
  /-- A status operation reads (45_status.md R251 to R253). -/
  | status {i : Instr} (v : Word) : isStatus i → (v ≠ 0 → i = .rdStat ∨ ∃ sel, i = .rdCnt sel) →
      Effect s i { s with out := [answer .ok v] }
  /-- An index outside its table (42_write.md R180, 45_status.md R253). -/
  | badIndex {i : Instr} : isWrite i ∨ isStatus i → Effect s i { s with out := [answer .badIndex 0] }
  /-- A write stores and queues, or stores and finds the buffer full (42_write.md R180). -/
  | written {i : Instr} (cells : Cells) (f : Frame) : isWrite i → Frame.outbound f →
      Effect s i { s with
        cells := cells, txq := (s.txq.enq f).1
        out := [answer (if (s.txq.enq f).2 then .ok else .bufferFull) 0] }
  | refreshed (cells : Cells) (cnt : Counters) (events : List Output) : Drained s cells cnt events →
      Effect s .refresh (refreshed s cells cnt events)
  | arrived {i : Instr} (mt : BitVec 3) (id : Identifier) (len : BitVec 4) (data : Payload) : isArrival i →
      Effect s i (arrived s mt id len data)
  /-- The head frame leaves (44_refresh_tx.md R236). -/
  | completed : s.inflight = true →
      Effect s .sendComplete { s with txq := s.txq.commit, inflight := false, out := [] }
  /-- Nothing is in flight (44_refresh_tx.md R237). -/
  | ignored : s.inflight = false → Effect s .sendComplete { s with out := [] }
  | enqueued (f : Frame) :
      Effect s (.enq f) { s with txq := (s.txq.enq f).1, out := [.txqOk (s.txq.enq f).2] }
  | committed : Effect s .commit { s with txq := s.txq.commit, out := [] }
  /-- PEEK and the codec only answer (40_txq.md R122, 41_codec.md R140). -/
  | selected {i : Instr} (n : Nat) (o : Output) : (encode i).port = .txq ∨ (encode i).port = .codec → ofSelect o →
      Effect s i { s with fresh := n, out := [o] }

/-! The port of each kind of operation (30_encoding.md R80) -/

theorem port_of_isStatus {i : Instr} (h : isStatus i) : (encode i).port = .main := by
  cases i with
  | nop | rdStat | rdCnt => rfl
  | _ => exact h.elim

theorem port_of_isWrite {i : Instr} (h : isWrite i) : (encode i).port = .main := by
  cases i with
  | wrSi | wrDi | wrMv16 | wrMv32 => rfl
  | _ => exact h.elim

theorem port_of_isArrival {i : Instr} (h : isArrival i) : (encode i).port = .rx := by
  cases i with
  | rx | frameSi | frameDi | frameMv16 | frameMv32 | frameSc | frameDc | frameSp16 | frameSp32 => rfl
  | _ => exact h.elim

/-- A write of class `c` (42_write.md R180): `store` makes cells of its own, the payload has the class's length. -/
theorem Effect.of_applyWrite {i : Instr} {s : State} {store : State → State} {cells : Cells} {enc : BitVec 4 × Payload}
    (c : MsgClass) (idx : Index) (hi : isWrite i) (hstore : store s.start = { s.start with cells := cells })
    (hout : inbound c.code = false) (hlen : enc.1.toNat = requiredWidth c) :
    Effect s i (s.applyWrite c idx store enc) := by
  cases hid : (idTable s.cfg c)[idx.toNat]? with
  | none =>
    rw [State.applyWrite_of_none store enc hid]
    exact .badIndex (.inl hi)
  | some id =>
    rw [State.applyWrite_of_some enc hid hstore]
    exact .written cells _ hi ⟨hout, by rw [writtenFrame, MsgClass.ofCode_code]; exact hlen⟩

theorem Effect.of_decodeInstr {s : State} (c : MsgClass) (len : BitVec 4) (data : Payload) :
    Effect s (decodeInstr c len data) (s.answerDec (decodedFrame c len data)) := by
  have hport : (encode (decodeInstr c len data)).port = .codec := by cases c <;> rfl
  cases decodedFrame c len data with
  | none => exact .selected (s.fresh + 1) _ (.inr hport) trivial
  | some r => exact .selected s.fresh _ (.inr hport) trivial

theorem exec_effect {i : Instr} {s t : State} (h : exec i s = .next t) : Effect s i t := by
  cases i with
  | nop => cases h; exact .status 0 trivial (fun h0 => absurd rfl h0)
  | wrSi idx x => cases h; exact .of_applyWrite .si idx trivial rfl rfl rfl
  | wrDi idx x => cases h; exact .of_applyWrite .di idx trivial rfl rfl rfl
  | wrMv16 idx x => cases h; exact .of_applyWrite .mv16 idx trivial rfl rfl rfl
  | wrMv32 idx x => cases h; exact .of_applyWrite .mv32 idx trivial rfl rfl rfl
  | refresh =>
    obtain ⟨cells, cnt, events, hexec, hdrained⟩ := exec_refresh_drained s
    obtain rfl := Host.Outcome.next.inj (h.symm.trans hexec)
    exact .refreshed cells cnt events hdrained
  | rdStat => cases h; exact .status s.statWord trivial fun _ => .inl rfl
  | rdCnt sel =>
    cases hv : s.cnt.select sel with
    | none =>
      obtain rfl := Host.Outcome.next.inj (h.symm.trans (exec_rdCnt_of_none hv))
      exact .badIndex (.inr trivial)
    | some v =>
      obtain rfl := Host.Outcome.next.inj (h.symm.trans (exec_rdCnt_of_some hv))
      exact .status v trivial fun _ => .inr ⟨sel, rfl⟩
  | rx f => cases h; rw [State.receive_eq]; exact .arrived _ _ _ _ trivial
  | frameSi id len d => cases (exec_arrivalInstr .si id len d s).symm.trans h; exact .arrived _ _ _ _ trivial
  | frameDi id len d => cases (exec_arrivalInstr .di id len d s).symm.trans h; exact .arrived _ _ _ _ trivial
  | frameMv16 id len d => cases (exec_arrivalInstr .mv16 id len d s).symm.trans h; exact .arrived _ _ _ _ trivial
  | frameMv32 id len d => cases (exec_arrivalInstr .mv32 id len d s).symm.trans h; exact .arrived _ _ _ _ trivial
  | frameSc id len d => cases (exec_arrivalInstr .sc id len d s).symm.trans h; exact .arrived _ _ _ _ trivial
  | frameDc id len d => cases (exec_arrivalInstr .dc id len d s).symm.trans h; exact .arrived _ _ _ _ trivial
  | frameSp16 id len d => cases (exec_arrivalInstr .sp16 id len d s).symm.trans h; exact .arrived _ _ _ _ trivial
  | frameSp32 id len d => cases (exec_arrivalInstr .sp32 id len d s).symm.trans h; exact .arrived _ _ _ _ trivial
  | sendComplete =>
    cases hin : s.inflight with
    | true => cases (exec_sendComplete_of_inflight hin).symm.trans h; exact .completed hin
    | false => cases (exec_sendComplete_of_idle hin).symm.trans h; exact .ignored hin
  | enq f => cases h; exact .enqueued f
  | commit => cases h; exact .committed
  | peek =>
    cases hp : s.txq.peek with
    | none => cases (exec_peek_of_none hp).symm.trans h; exact .selected _ _ (.inl rfl) trivial
    | some f => cases (exec_peek_of_some hp).symm.trans h; exact .selected s.fresh _ (.inl rfl) trivial
  | encSi | encDi | encMv16 | encMv32 | encSc | encDc | encSp16 | encSp32 =>
    cases h; exact .selected s.fresh _ (.inr rfl) trivial
  | decSi len d => cases h; exact .of_decodeInstr .si len d
  | decDi len d => cases h; exact .of_decodeInstr .di len d
  | decMv16 len d => cases h; exact .of_decodeInstr .mv16 len d
  | decMv32 len d => cases h; exact .of_decodeInstr .mv32 len d
  | decSc len d => cases h; exact .of_decodeInstr .sc len d
  | decDc len d => cases h; exact .of_decodeInstr .dc len d
  | decSp16 len d => cases h; exact .of_decodeInstr .sp16 len d
  | decSp32 len d => cases h; exact .of_decodeInstr .sp32 len d

end Sys2Proof.Machine
end

