-- ==== Sys2Proof/Proofs/Steps.lean ====
section
/-! One step (20_memory.md section 5): its closed form by the next event, what every step keeps, the response of a command
word; then the statements about single steps and about runs that rest on nothing else. -/

open Sys2Proof.Machine.Says

namespace Sys2Proof.Machine

/-! ### The closed form of a step, by the next event -/

theorem step_of_idle {s : State} (h : s.pending = []) : step s = .next s.start := by
  simp only [step, h]

theorem step_of_reset {s : State} {rest : List Stimulus} (h : s.pending = .reset :: rest) :
    step s = .next (State.applyReset { s with pending := rest }) := by
  simp only [step, h]

theorem step_of_decoded {s : State} {word : PortWord} {time : Word} {accept : Bool} {rest : List Stimulus} {i : Instr}
    (hpending : s.pending = .op word time accept :: rest) (hdecode : decode word = .ok i) :
    step s = exec i (s.take time accept rest) := by
  simp only [step, hpending, hdecode]

/-- A word that selects nothing changes no register; only a reserved command word is answered. -/
theorem State.reject_eq (r : Reject) (s : State) :
    s.reject r = { s with out := if r = .badOp then [answer .badOp 0] else [] } := by
  cases r <;> rfl

/-! ### What every operation, step and run keeps -/

theorem Effect.keeps_environment {i : Instr} {s t : State} (h : Effect s i t) :
    t.cfg = s.cfg ∧ t.pending = s.pending ∧ t.time = s.time ∧ t.txAccept = s.txAccept := by
  cases h with
  | arrived mt id len data => exact ⟨by simp, by simp, by simp, by simp⟩
  | _ => exact ⟨rfl, rfl, rfl, rfl⟩

/-- Every step answers a next state; it takes the next event, if there is one, and keeps the configuration. -/
theorem step_next (s : State) : ∃ t, step s = .next t ∧ t.cfg = s.cfg ∧ t.pending = s.pending.tail := by
  cases hp : s.pending with
  | nil => exact ⟨_, step_of_idle hp, rfl, hp⟩
  | cons e rest =>
    cases e with
    | reset => exact ⟨_, step_of_reset hp, rfl, rfl⟩
    | op word time accept =>
      cases hd : decode word with
      | error r => exact ⟨_, step_of_rejected hp hd, by rw [State.reject_eq]; rfl, by rw [State.reject_eq]; rfl⟩
      | ok i =>
        obtain ⟨t, ht⟩ := exec_next i (s.take time accept rest)
        obtain ⟨hcfg, hpending, -⟩ := (exec_effect ht).keeps_environment
        exact ⟨t, (step_of_decoded hp hd).trans ht, hcfg, hpending⟩

theorem run_succ {s t : State} (n : Nat) (h : step s = .next t) :
    Sys2Proof.core.run (n + 1) s = Sys2Proof.core.run n t := by
  have hstep : Sys2Proof.core.step s = .next t := h
  simp only [Host.Core.run, hstep]

/-- Settles O10: by induction on the number of steps. -/
theorem noRunStopsOrWritesTheConfiguration : Obligations.NoRunStopsOrWritesTheConfiguration := by
  intro n
  induction n with
  | zero => exact fun s => ⟨s, rfl, rfl, rfl⟩
  | succ n ih =>
    intro s
    obtain ⟨u, hu, hcfg, hpending⟩ := step_next s
    obtain ⟨t, ht, hcfg', hpending'⟩ := ih u
    exact ⟨t, (run_succ n hu).trans ht, hcfg'.trans hcfg, by rw [hpending', hpending, List.drop_tail]⟩

/-! ### The ring invariant (10_state.md R26) -/

theorem Effect.keeps_ring {i : Instr} {s t : State} (h : Effect s i t) (hinv : s.txq.inv) : t.txq.inv := by
  cases h with
  | written cells f => exact Txq.enq_inv f hinv
  | enqueued f => exact Txq.enq_inv f hinv
  | completed | committed => exact Txq.commit_inv hinv
  | arrived mt id len data => rw [arrived_txq]; exact hinv
  | _ => exact hinv

theorem Txq.reset_inv : Txq.reset.inv := rfl

/-- Settles O20: by the cases of a step. -/
theorem everyStepKeepsTheRingInvariant : Obligations.EveryStepKeepsTheRingInvariant := by
  intro s t hinv hstep
  rcases step_cases hstep with ⟨-, rfl⟩ | ⟨rest, -, rfl⟩ | ⟨word, time, accept, rest, -, ⟨i, -, hexec⟩ | ⟨r, -, rfl⟩⟩
  · exact hinv
  · exact Txq.reset_inv
  · exact (exec_effect hexec).keeps_ring hinv
  · rw [State.reject_eq]
    exact hinv

/-! ### The response of a command word (30_encoding.md R93) -/

/-- An operation stands at the port of its word. -/
theorem encode_port_of_decode {word : PortWord} {i : Instr} (h : decode word = .ok i) :
    (encode i).port = word.port := by
  cases word with
  | app w => rw [encode_of_decode_app h]; rfl
  | rx w => cases h; rfl
  | sc w =>
    simp only [decode, decodeSc] at h
    split at h <;> cases h
    rfl
  | wid w len data =>
    cases (decode_wid w len data).symm.trans h
    cases MsgClass.ofCode (w.extractLsb' 8 3) <;> rfl
  | txq sel f =>
    simp only [decode, decodeTxq] at h
    split at h <;> cases h <;> rfl
  | codec sel value ts len data =>
    simp only [decode, decodeCodec] at h
    cases h
    split
    · cases MsgClass.ofCode (sel.extractLsb' 0 3) <;> rfl
    · cases MsgClass.ofCode (sel.extractLsb' 0 3) <;> rfl

/-- The rejected words of the MAIN port are the reserved ones. -/
theorem badOp_iff_of_decode {word : PortWord} {r : Reject} (h : decode word = .error r) :
    r = .badOp ↔ word.port = .main := by
  cases word with
  | app w =>
    simp only [decode, decodeApp] at h
    split at h
    · cases h; simp [PortWord.port]
    · split at h <;> cases h
      simp [PortWord.port]
  | rx | wid | codec => cases h
  | sc w =>
    simp only [decode, decodeSc] at h
    split at h <;> cases h
    simp [PortWord.port]
  | txq sel f =>
    simp only [decode, decodeTxq] at h
    split at h <;> cases h
    simp [PortWord.port]

/-- `RSP35`: the code above the read data. -/
theorem Response.word_fields (r : Response) :
    r.word.extractLsb' 32 3 = r.res.code ∧ r.word.extractLsb' 0 32 = r.rdata :=
  ⟨(slice_append_high r.res.code r.rdata 0 3).trans (slice_all _),
   (slice_append_low r.res.code r.rdata 0 32 (by omega)).trans (slice_all _)⟩

/-- The four codes of the MAIN port (60_exceptions.md R260). -/
def isMainCode (e : Cause) : Prop := e = .ok ∨ e = .bufferFull ∨ e = .badIndex ∨ e = .badOp

/-- The outputs of a command word: one response, last, with a code of the MAIN port, and read data only on success of
`reads` operations. -/
def Responds (reads : Prop) (out : List Output) : Prop :=
  ∃ before r, out = before ++ [.rsp r] ∧ (∀ x, .rsp x ∉ before) ∧ isMainCode r.res ∧
    (r.rdata ≠ 0 → r.res = .ok ∧ reads)

theorem Responds.of_answer {reads : Prop} {before : List Output} {e : Cause} {v : Word} (hcode : isMainCode e)
    (hbefore : ∀ x, .rsp x ∉ before) (hv : v ≠ 0 → e = .ok ∧ reads) : Responds reads (before ++ [answer e v]) :=
  ⟨before, _, rfl, hbefore, hcode, hv⟩

/-- The events and the presentation of a REFRESH are no responses. -/
theorem Drained.no_response {s : State} {cells : Cells} {cnt : Counters} {events : List Output}
    (h : Drained s cells cnt events) (x : Response) : .rsp x ∉ events ++ presented s := by
  rcases h.events_cases with rfl | ⟨c, rfl, -⟩ <;> rcases presented_cases s with hp | ⟨g, hp, -⟩ <;> simp [hp]

theorem Effect.responds {i : Instr} {s t : State} (h : Effect s i t) (hmain : (encode i).port = .main) :
    Responds (i = .rdStat ∨ ∃ sel, i = .rdCnt sel) t.out := by
  cases h with
  | status v _ hv => exact .of_answer (before := []) (.inl rfl) (by simp) fun hne => ⟨rfl, hv hne⟩
  | badIndex => exact .of_answer (before := []) (.inr (.inr (.inl rfl))) (by simp) fun hne => absurd rfl hne
  | written cells f =>
    refine .of_answer (before := []) ?_ (by simp) fun hne => absurd rfl hne
    split
    · exact .inl rfl
    · exact .inr (.inl rfl)
  | refreshed cells cnt events hdrained => exact .of_answer (.inl rfl) hdrained.no_response fun hne => absurd rfl hne
  | arrived mt id len data hi => exact absurd (hmain.symm.trans (port_of_isArrival hi)) (by decide)
  | completed | ignored | enqueued | committed => cases hmain
  | selected n o hport =>
    rw [hmain] at hport
    simp at hport

theorem Effect.no_response {i : Instr} {s t : State} (h : Effect s i t) (hmain : (encode i).port ≠ .main)
    (x : Response) : .rsp x ∉ t.out := by
  cases h with
  | status v hi => exact absurd (port_of_isStatus hi) hmain
  | badIndex hi => exact absurd (hi.elim port_of_isWrite port_of_isStatus) hmain
  | written cells f hi => exact absurd (port_of_isWrite hi) hmain
  | refreshed => exact absurd rfl hmain
  | arrived => simp
  | completed | ignored | committed => exact List.not_mem_nil
  | enqueued => simp
  | selected n o _ ho =>
    rintro (_ | ⟨_, hmem⟩)
    · exact ho
    · cases hmem

/-- Settles O9: by what the word decodes to; the operation of a command word answers, no other operation does. -/
theorem everyCommandWordGetsOneResponse : Obligations.EveryCommandWordGetsOneResponse := by
  constructor
  · intro s w time accept rest hpending
    have hresponds : ∃ t, step s = .next t ∧
        Responds (decode (.app w) = .ok .rdStat ∨ ∃ sel, decode (.app w) = .ok (.rdCnt sel)) t.out := by
      cases hd : decode (.app w) with
      | error r =>
        have hr : r = .badOp := (badOp_iff_of_decode hd).2 rfl
        refine ⟨_, step_of_rejected hpending hd, ?_⟩
        rw [State.reject_eq, if_pos hr]
        exact .of_answer (before := []) (.inr (.inr (.inr rfl))) (by simp) fun hne => absurd rfl hne
      | ok i =>
        obtain ⟨t, ht⟩ := exec_next i (s.take time accept rest)
        refine ⟨t, (step_of_decoded hpending hd).trans ht, ?_⟩
        simpa using (exec_effect ht).responds (encode_port_of_decode hd)
    obtain ⟨t, ht, before, r, hout, hbefore, hcode, hread⟩ := hresponds
    obtain ⟨hhigh, hlow⟩ := r.word_fields
    refine ⟨t, before, r, ht, hout, hbefore, ?_, hread, hlow⟩
    rw [hhigh]
    rcases hcode with h | h | h | h <;> simp [h, Cause.code]
  · intro s word time accept rest hpending hport
    cases hd : decode word with
    | error r =>
      refine ⟨_, step_of_rejected hpending hd, fun x => ?_⟩
      rw [State.reject_eq, if_neg (mt (badOp_iff_of_decode hd).1 hport)]
      exact List.not_mem_nil
    | ok i =>
      obtain ⟨t, ht⟩ := exec_next i (s.take time accept rest)
      exact ⟨t, (step_of_decoded hpending hd).trans ht,
        (exec_effect ht).no_response (by rw [encode_port_of_decode hd]; exact hport)⟩

/-! ### The statements about single steps -/

/-- Settles O5: the closed form of a step. -/
theorem stepRunsTheDecodedOperation : Obligations.StepRunsTheDecodedOperation :=
  fun _ _ _ _ _ _ => step_of_decoded

/-- Settles O6: the placed word is the next event, at the levels that the pins have already. -/
theorem placedWordRunsNext : Obligations.PlacedWordRunsNext := by
  intro s nbits w i h
  unfold decodeTableWord at h
  cases hp : PortWord.ofTable nbits w with
  | none => simp [hp] at h
  | some p =>
    have hpending : (s.withFetchWord nbits w).pending = .op p s.time s.txAccept :: s.pending := by
      simp only [State.withFetchWord, hp]
    have hsame : (s.withFetchWord nbits w).take s.time s.txAccept s.pending = s := by
      simp only [State.withFetchWord, hp, State.take]
    cases hd : decode p with
    | error r => simp [hp, hd] at h
    | ok j =>
      obtain rfl : j = i := by simpa [hp, hd] using h
      rw [step_of_decoded hpending hd, hsame]

/-- Settles O7: the closed form of a step with no event, and of a step whose word is idle. -/
theorem idlePortsHoldTheState : Obligations.IdlePortsHoldTheState :=
  fun _ => ⟨step_of_idle, fun _ _ _ hpending => step_of_rejected hpending rfl,
    fun _ _ _ _ hpending => step_of_rejected hpending rfl⟩

/-- The status word of an empty buffer with `HEAD` and `TAIL` at 0 and both flags clear (95_test_vectors.md). -/
theorem statWord_of_applyReset (s : State) : s.applyReset.statWord = 0x00000010 := by
  simp only [State.statWord, State.applyReset_txq, State.applyReset_rxsOcc, State.applyReset_inflight]
  decide

/-- Settles O12: the state that the reset event leaves; nothing is in flight in it. -/
theorem resetDiscardsEverything : Obligations.ResetDiscardsEverything := by
  intro s rest hpending
  refine ⟨_, step_of_reset hpending, rfl, rfl, rfl, rfl, rfl, rfl, rfl, rfl, exec_sendComplete_of_idle rfl, ?_⟩
  exact ⟨_, _, exec_rdStat _, rfl, statWord_of_applyReset _⟩

/-! ### Outputs are not read back -/

/-- Every operation starts from idle ports, whatever the one before it had emitted (log 3). -/
theorem exec_of_out (j : Instr) (s : State) (out : List Output) : exec j { s with out := out } = exec j s := by
  cases j <;> rfl

/-- A status operation changes nothing but the outputs. -/
theorem exec_of_isStatus {i : Instr} (h : isStatus i) (s : State) :
    ∃ out, exec i s = .next { s with out := out } := by
  cases i with
  | nop => exact ⟨_, exec_nop s⟩
  | rdStat => exact ⟨_, exec_rdStat s⟩
  | rdCnt sel =>
    cases hv : s.cnt.select sel with
    | none => exact ⟨_, exec_rdCnt_of_none hv⟩
    | some v => exact ⟨_, exec_rdCnt_of_some hv⟩
  | _ => exact h.elim

/-- Settles O54: a status operation leaves only outputs, which no operation reads. -/
theorem statusOperationsAreTransparent : Obligations.StatusOperationsAreTransparent := by
  intro i s hi
  obtain ⟨out, hexec⟩ := exec_of_isStatus hi s
  exact ⟨_, hexec, fun j => exec_of_out j s out⟩

end Sys2Proof.Machine
end

