-- ==== Sys2Proof/Proofs/QueueRefinement.lean ====
section
/-! The ring buffer refines a queue of at most ten frames (40_txq.md section 3): what each primitive does to `Q` and
answers, then sequences of primitives. -/

open Sys2Proof.Machine.Says

namespace Sys2Proof.Machine

/-! ### Each primitive on `Q` -/

/-- A buffer with fewer than ten frames takes one more. -/
theorem exec_enq_of_room (f : Frame) {s : State} (hinv : s.txq.inv) (hroom : s.txq.queue.length < 10) :
    ∃ t, exec (.enq f) s = .next t ∧ t.out = [.txqOk true] ∧ t.txq.queue = s.txq.queue ++ [f] ∧ t.txq.inv := by
  have hne : s.txq.count.val ≠ 10 := by rw [Txq.queue_length] at hroom; omega
  exact ⟨_, exec_enq f s, by rw [(Txq.enq_room f hne).1], Txq.enq_queue f hinv hne, Txq.enq_inv f hinv⟩

/-- A buffer with ten frames rejects a further one. -/
theorem exec_enq_of_full (f : Frame) {s : State} (hfull : s.txq.queue.length = 10) :
    exec (.enq f) s = .next { s with out := [.txqOk false] } := by
  rw [Txq.queue_length] at hfull
  rw [exec_enq, Txq.enq_full f hfull]

/-- `PEEK` leaves the buffer, and what it answers of meaning is the first frame of `Q`. -/
theorem exec_peek_answers (s : State) :
    ∃ t, exec .peek s = .next t ∧ t.txq = s.txq ∧
      ((s.txq.queue.head? = none ∧ ∃ f, t.out = [.txqFrame false f]) ∨
        ∃ g, s.txq.queue.head? = some g ∧ t.out = [.txqFrame true g]) := by
  rw [Txq.queue_head]
  cases hp : s.txq.peek with
  | none => exact ⟨_, exec_peek_of_none hp, rfl, .inl ⟨rfl, _, rfl⟩⟩
  | some g => exact ⟨_, exec_peek_of_some hp, rfl, .inr ⟨g, rfl, rfl⟩⟩

/-- Its meaningful answer is a function of `Q`. -/
theorem exec_peek_meaningful (s : State) :
    ∃ t, exec .peek s = .next t ∧ t.txq = s.txq ∧
      t.out.map meaningful = [s.txq.queue.head?.elim (.txqFrame false blankFrame) (.txqFrame true)] := by
  obtain ⟨t, hexec, hsame, ⟨hhead, f, hout⟩ | ⟨g, hhead, hout⟩⟩ := exec_peek_answers s
  · exact ⟨t, hexec, hsame, by rw [hhead, hout]; rfl⟩
  · exact ⟨t, hexec, hsame, by rw [hhead, hout]; rfl⟩

/-- Settles O16: the three primitives on `Q`. -/
theorem ringRefinesTheQueue : Obligations.RingRefinesTheQueue := by
  intro s hinv
  refine ⟨s.txq.queue_length, fun f => exec_enq_of_room f hinv, fun f hfull => ?_, ?_, ?_⟩
  · exact ⟨_, exec_enq_of_full f hfull, rfl, rfl⟩
  · obtain ⟨t, hexec, hsame, ⟨hhead, f, hout⟩ | ⟨g, hhead, hout⟩⟩ := exec_peek_answers s
    · exact ⟨t, hexec, hsame, fun g => by simp [hhead, hout]⟩
    · exact ⟨t, hexec, hsame, fun g' => by simp [hhead, hout]⟩
  · exact ⟨_, exec_commit s, s.txq.commit_queue, Txq.commit_inv hinv⟩

/-! ### Sequences of primitives -/

theorem perform_cons {i : Instr} {rest : List Instr} {s t u : State} {answers : List (List Output)}
    (hexec : exec i s = .next t) (hrest : perform rest t = some (answers, u)) :
    perform (i :: rest) s = some (t.out.map meaningful :: answers, u) := by
  simp only [perform, hexec, hrest, Option.map_some]

/-- One primitive on two buffers with the same contents: the same meaningful answer, and the same contents again. -/
theorem exec_txqOp_of_same_queue {i : Instr} {s t : State} (hi : isTxqOp i) (hs : s.txq.inv) (ht : t.txq.inv)
    (hqueue : s.txq.queue = t.txq.queue) :
    ∃ u v, exec i s = .next u ∧ exec i t = .next v ∧ u.out.map meaningful = v.out.map meaningful ∧
      u.txq.inv ∧ v.txq.inv ∧ u.txq.queue = v.txq.queue := by
  cases i with
  | enq f =>
    by_cases hroom : s.txq.queue.length < 10
    · obtain ⟨u, hu, huout, huqueue, huinv⟩ := exec_enq_of_room f hs hroom
      obtain ⟨v, hv, hvout, hvqueue, hvinv⟩ := exec_enq_of_room f ht (hqueue ▸ hroom)
      exact ⟨u, v, hu, hv, by rw [huout, hvout], huinv, hvinv, by rw [huqueue, hvqueue, hqueue]⟩
    · have hfull : s.txq.queue.length = 10 := by
        have := s.txq.count.isLt
        have := s.txq.queue_length
        omega
      exact ⟨_, _, exec_enq_of_full f hfull, exec_enq_of_full f (hqueue ▸ hfull), rfl, hs, ht, hqueue⟩
  | peek =>
    obtain ⟨u, hu, husame, huout⟩ := exec_peek_meaningful s
    obtain ⟨v, hv, hvsame, hvout⟩ := exec_peek_meaningful t
    exact ⟨u, v, hu, hv, by rw [huout, hvout, hqueue], husame ▸ hs, hvsame ▸ ht, by rw [husame, hvsame, hqueue]⟩
  | commit =>
    exact ⟨_, _, exec_commit s, exec_commit t, rfl, Txq.commit_inv hs, Txq.commit_inv ht, by
      rw [Txq.commit_queue, Txq.commit_queue, hqueue]⟩
  | _ => exact hi.elim

/-- Settles O17: by induction on the operations; each keeps the two contents equal. -/
theorem sameContentsGiveSameAnswers : Obligations.SameContentsGiveSameAnswers := by
  intro ops
  induction ops with
  | nil => exact fun s t _ hs ht hqueue => ⟨[], s, t, rfl, rfl, hqueue, hs, ht⟩
  | cons i rest ih =>
    intro s t hops hs ht hqueue
    obtain ⟨hi, hrest⟩ := List.forall_mem_cons.1 hops
    obtain ⟨u, v, hu, hv, hout, huinv, hvinv, huv⟩ := exec_txqOp_of_same_queue hi hs ht hqueue
    obtain ⟨answers, u', v', hu', hv', hfinal⟩ := ih u v hrest huinv hvinv huv
    exact ⟨_, u', v', perform_cons hu hu', hout ▸ perform_cons hv hv', hfinal⟩

/-- As many ENQs as there is room for all succeed and append in order. -/
theorem perform_enqs (fs : List Frame) : ∀ {s : State}, s.txq.inv → s.txq.queue.length + fs.length ≤ 10 →
    ∃ t, perform (fs.map Instr.enq) s = some (List.replicate fs.length [.txqOk true], t) ∧
      t.txq.queue = s.txq.queue ++ fs ∧ t.txq.inv := by
  induction fs with
  | nil => exact fun {s} hinv _ => ⟨s, rfl, (List.append_nil _).symm, hinv⟩
  | cons f rest ih =>
    intro s hinv hroom
    rw [List.length_cons] at hroom
    obtain ⟨u, hu, hout, hqueue, huinv⟩ := exec_enq_of_room f hinv (by omega)
    obtain ⟨t, ht, htqueue, htinv⟩ := ih huinv (by rw [hqueue, List.length_append, List.length_singleton]; omega)
    refine ⟨t, ?_, by rw [htqueue, hqueue, List.append_assoc]; rfl, htinv⟩
    rw [List.map_cons, perform_cons hu ht, hout]
    rfl

/-- Settles O18: ten ENQs fit, and then `Q` has ten frames. -/
theorem eleventhEnqueueIsRejected : Obligations.EleventhEnqueueIsRejected := by
  intro s fs f hinv hempty hlen
  have hnone : s.txq.queue = [] := Txq.queue_of_empty ((Txq.count_eq_zero_iff _).1 hempty)
  obtain ⟨t, ht, hqueue, -⟩ := perform_enqs fs hinv (by rw [hnone, hlen]; decide)
  rw [hnone, List.nil_append] at hqueue
  rw [hlen] at ht
  exact ⟨t, ht, hqueue, _, exec_enq_of_full f (by rw [hqueue, hlen]), rfl, rfl⟩

/-- COMMITs on an empty buffer answer nothing and leave it. -/
theorem perform_commits_of_empty (n : Nat) : ∀ {s : State}, s.txq.count.val = 0 →
    ∃ t, perform (List.replicate n .commit) s = some (List.replicate n [], t) ∧ t.txq = s.txq := by
  induction n with
  | zero => exact fun {s} _ => ⟨s, rfl, rfl⟩
  | succ n ih =>
    intro s hempty
    have hsame : s.txq.commit = s.txq := Txq.commit_of_empty hempty
    obtain ⟨t, ht, htsame⟩ := @ih { s with txq := s.txq.commit, out := [] } (by rw [hsame]; exact hempty)
    exact ⟨t, perform_cons (exec_commit s) ht, htsame.trans hsame⟩

/-- Settles O19: the COMMITs leave the empty buffer, and ENQ on it makes its frame the head. -/
theorem drainingAnEmptyBufferIsIdempotent : Obligations.DrainingAnEmptyBufferIsIdempotent := by
  intro n s f hinv hempty
  rw [Txq.count_eq_zero_iff] at hempty
  obtain ⟨t, ht, hsame⟩ := perform_commits_of_empty n hempty
  refine ⟨t, _, _, ht, hsame, exec_enq f t, exec_peek_of_some (f := f) ?_, rfl⟩
  rw [hsame]
  exact Txq.enq_peek_of_empty f hinv hempty

end Sys2Proof.Machine
end

