-- ==== Sys2Proof/Proofs/CodecRoundTrip.lean ====
section
/-! The codec both ways (41_codec.md section 4): what `DEC.c` makes of a payload of `ENC.c`, said once for the eight
classes; the Command layout, and the inputs that the codec's rules do not speak of. -/

open Sys2Proof.Machine.Says

namespace Sys2Proof.Machine

/-! ### Encode -/

theorem bytes_encCommand (x : Byte) : Bytes (encCommand x).2 x 0 0 0 0 0 0 0 := by
  simp [Bytes, encCommand, dataByte_memWrite, dataByte_zeroLit]

/-- A State byte comes back from the low byte of the 32-bit input. -/
theorem setWidth_setWidth_byte (x : Byte) : (x.setWidth 32).setWidth 8 = x :=
  (BitVec.setWidth_setWidth_of_le x (by omega : 8 ≤ 32)).trans x.setWidth_eq

/-- Settles O24: the encode rule at the two Command classes. -/
theorem encodeCommandLayout : Obligations.EncodeCommandLayout := by
  intro x t s l d
  refine ⟨decode_encodeSelect .sc _ t l d, decode_encodeSelect .dc _ t l d, (encCommand x).2, bytes_encCommand x, ?_⟩
  have hsc := exec_encodeInstr .sc (x.setWidth 32) t s
  have hdc := exec_encodeInstr .dc (x.setWidth 32) t s
  simp only [encodedFrame, setWidth_setWidth_byte] at hsc hdc
  exact ⟨hsc, hdc⟩

/-- The class's low bits of the value input (log 11). -/
def lowBits (c : MsgClass) (v : Word) : Word :=
  match c with
  | .si | .di | .sc | .dc => (v.setWidth 8).setWidth 32
  | .mv16 | .sp16 => (v.setWidth 16).setWidth 32
  | .mv32 | .sp32 => v

theorem encodedFrame_lowBits (c : MsgClass) (v t : Word) : encodedFrame c (lowBits c v) t = encodedFrame c v t := by
  cases c with
  | si | di | sc | dc => simp only [encodedFrame, lowBits, setWidth_setWidth_byte]
  | mv16 | sp16 => simp only [encodedFrame, lowBits, setWidth_of_extended (.inl rfl)]
  | mv32 | sp32 => rfl

theorem exec_encodeInstr_lowBits (c : MsgClass) (v t : Word) (s : State) :
    exec (encodeInstr c v t) s = exec (encodeInstr c (lowBits c v) t) s := by
  rw [exec_encodeInstr, exec_encodeInstr, encodedFrame_lowBits]

/-! ### Decode -/

theorem requiredWidth_le_eight (c : MsgClass) : requiredWidth c ≤ 8 := by cases c <;> decide

/-- Settles O31: the encode rule uses the low bits alone, and every length from 8 up passes the test of every class. -/
theorem codecInputsOutsideTheirRange : Obligations.CodecInputsOutsideTheirRange := by
  intro v t len data s
  refine ⟨exec_encodeInstr_lowBits .si v t s, exec_encodeInstr_lowBits .di v t s, exec_encodeInstr_lowBits .mv16 v t s,
    exec_encodeInstr_lowBits .sc v t s, exec_encodeInstr_lowBits .dc v t s, exec_encodeInstr_lowBits .sp16 v t s,
    fun hlen c => ?_⟩
  have hwidth : requiredWidth c ≤ (8 : BitVec 4).toNat := requiredWidth_le_eight c
  rw [exec_decodeInstr_of_long c data s (hwidth.trans hlen.le), exec_decodeInstr_of_long c data s hwidth]

/-! ### Decode after encode -/

/-- The value output of `DEC.c` for the value input `v` of `ENC.c`: extended from the class's width (41_codec.md R162). -/
def returnedValue (c : MsgClass) (v : Word) : Word :=
  match c with
  | .si | .di | .sc | .dc => extState (v.setWidth 8)
  | .mv16 | .sp16 => extHalf (v.setWidth 16)
  | .mv32 | .sp32 => v

/-- The timestamp output: only three classes carry it (41_codec.md R160). -/
def returnedStamp (c : MsgClass) (t : Word) : Word :=
  match c with
  | .si | .di | .mv16 => t
  | .mv32 | .sc | .dc | .sp16 | .sp32 => 0

theorem decodedFrame_encodedFrame (c : MsgClass) (v t : Word) :
    decodedFrame c (encodedFrame c v t).1 (encodedFrame c v t).2 = some (returnedValue c v, returnedStamp c t) := by
  have hfirst (n : Nat) (x : BitVec (8 * n)) (h : n ≤ 8) : memRead (memWrite 0 0 n x) 0 n = x :=
    memRead_memWrite_same 0 0 n x (by omega)
  cases c with
  | si | di =>
    simp only [decodedFrame, encodedFrame, encIndication, decIndication, returnedValue, returnedStamp]
    rw [memRead_memWrite_same _ 1 4 t (by omega), memRead_memWrite_other _ 1 4 0 1 t (by omega) (by omega) (by omega),
      hfirst 1 _ (by omega)]
    rfl
  | mv16 =>
    simp only [decodedFrame, encodedFrame, encMeasured16, decMeasured16, returnedValue, returnedStamp]
    rw [memRead_memWrite_same _ 2 4 t (by omega), memRead_memWrite_other _ 2 4 0 2 t (by omega) (by omega) (by omega),
      hfirst 2 _ (by omega)]
    rfl
  | mv32 | sp32 =>
    simp only [decodedFrame, encodedFrame, encValue32, decValue32, returnedValue, returnedStamp]
    rw [hfirst 4 v (by omega)]
    rfl
  | sc | dc =>
    simp only [decodedFrame, encodedFrame, encCommand, decCommand, returnedValue, returnedStamp]
    rw [hfirst 1 _ (by omega)]
    rfl
  | sp16 =>
    simp only [decodedFrame, encodedFrame, encSetPoint16, decSetPoint16, returnedValue, returnedStamp]
    rw [hfirst 2 _ (by omega)]
    rfl

/-- The round trip on the interface, for a value input that is the extension of its class's low bits. -/
theorem exec_decode_encode (c : MsgClass) {v : Word} (t : Word) (s : State) (hv : returnedValue c v = v) :
    ∃ l d, exec (encodeInstr c v t) s = .next { s with out := [.encoded l d] } ∧
      exec (decodeInstr c l d) s = .next { s with out := [.decoded true v (returnedStamp c t)] } := by
  refine ⟨_, _, exec_encodeInstr c v t s, ?_⟩
  rw [exec_decodeInstr, decodedFrame_encodedFrame, hv]
  rfl

/-- Settles O32: the round trip at each class. -/
theorem codecRoundTrip : Obligations.CodecRoundTrip := by
  intro b h v t s
  have hb : extState ((b.setWidth 32).setWidth 8) = b.setWidth 32 := congrArg extState (setWidth_setWidth_byte b)
  have hh : extHalf ((h.signExtend 32).setWidth 16) = h.signExtend 32 :=
    congrArg extHalf (setWidth_of_extended (.inr rfl))
  exact ⟨exec_decode_encode .si t s hb, exec_decode_encode .di t s hb, exec_decode_encode .mv16 t s hh,
    exec_decode_encode .mv32 t s rfl, exec_decode_encode .sc t s hb, exec_decode_encode .dc t s hb,
    exec_decode_encode .sp16 t s hh, exec_decode_encode .sp32 t s rfl⟩

end Sys2Proof.Machine
end

