-- ==== Sys2Proof/Proofs/InboundAndRefresh.lean ====
section
/-! The statements about arrivals (43_rx_dispatch.md) and about what a REFRESH counts, calls back and presents
(44_refresh_tx.md), each read off the closed form of an arrival or off the relation of the inbound half. -/

open Sys2Proof.Machine.Says

namespace Sys2Proof.Machine

/-! ### Arrivals -/

/-- Settles O40: the arrival of each class is RX of its frame. -/
theorem frameOfEachClassArrives : Obligations.FrameOfEachClassArrives := by
  intro id len data s
  refine ⟨fun w => ⟨_, decode_wid w len data, ?_⟩, exec_arrivalInstr .si id len data s,
    exec_arrivalInstr .di id len data s, exec_arrivalInstr .mv16 id len data s, exec_arrivalInstr .mv32 id len data s,
    exec_arrivalInstr .sc id len data s, exec_arrivalInstr .dc id len data s, exec_arrivalInstr .sp16 id len data s,
    exec_arrivalInstr .sp32 id len data s⟩
  rw [exec_arrivalInstr, MsgClass.code_ofCode]

/-- Settles O41: by induction on the frames; each finds the slot occupied and counts one. -/
theorem furtherFramesAreOnlyCounted : Obligations.FurtherFramesAreOnlyCounted := by
  intro fs
  induction fs with
  | nil => exact fun s hocc => ⟨[], s, rfl, (BitVec.add_zero _).symm, rfl, hocc, rfl, rfl, rfl, rfl, rfl⟩
  | cons f rest ih =>
    intro s hocc
    obtain ⟨answers, t, ht, hinovf, hkept⟩ :=
      ih { s with cnt := { s.cnt with inovf := s.cnt.inovf + 1 }, out := [] } hocc
    have hexec : exec (.rx f) s = .next { s with cnt := { s.cnt with inovf := s.cnt.inovf + 1 }, out := [] } := by
      rw [exec_rx, arrived_of_occupied _ _ _ _ _ hocc]
    refine ⟨_, t, perform_cons hexec ht, ?_, hkept⟩
    rw [hinovf, List.length_cons, Nat.add_comm rest.length 1, BitVec.ofNat_add, ← BitVec.add_assoc]
    rfl

/-! ### The callback event -/

/-- `CB43` (30_encoding.md R92): class, index, value. -/
theorem Callback.word_fields (c : Callback) :
    c.word.extractLsb' 40 3 = c.cls ∧ c.word.extractLsb' 32 8 = c.idx ∧ c.word.extractLsb' 0 32 = c.value :=
  ⟨(slice_append_high (c.cls ++ c.idx) c.value 8 3).trans ((slice_append_high c.cls c.idx 0 3).trans (slice_all _)),
   (slice_append_high (c.cls ++ c.idx) c.value 0 8).trans
    ((slice_append_low c.cls c.idx 0 8 (by omega)).trans (slice_all _)),
   (slice_append_low (c.cls ++ c.idx) c.value 0 32 (by omega)).trans (slice_all _)⟩

theorem idTable_wellFormed {g : Config} (h : g.wellFormed = true) (c : MsgClass) :
    (idTable g c).length ≤ 256 ∧ (idTable g c).Nodup := by
  have htable : tableWellFormed (idTable g c) = true := by
    simp only [Config.wellFormed, Bool.and_eq_true] at h
    obtain ⟨⟨⟨⟨⟨⟨⟨hsi, hdi⟩, hmv16⟩, hmv32⟩, hsc⟩, hdc⟩, hsp16⟩, hsp32⟩ := h
    cases c with
    | si => exact hsi
    | di => exact hdi
    | mv16 => exact hmv16
    | mv32 => exact hmv32
    | sc => exact hsc
    | dc => exact hdc
    | sp16 => exact hsp16
    | sp32 => exact hsp32
  simpa [tableWellFormed] using htable

/-- In a table without repetition the first match is the only one (00_scope.md R10). -/
theorem Says.FirstMatch.iff_of_nodup {ids : List Identifier} {id : Identifier} {i : Nat} (h : FirstMatch ids id i)
    (hnodup : ids.Nodup) (j : Nat) : ids[j]? = some id ↔ j = i := by
  obtain ⟨hi, -⟩ := h
  constructor
  · intro hj
    obtain ⟨hlt, -⟩ := List.getElem?_eq_some_iff.1 hj
    exact (List.getElem?_inj hlt hnodup).1 (hj.trans hi.symm)
  · rintro rfl
    exact hi

/-- Settles O45: only a delivery emits an event, of the frame's own class and its one matching object. -/
theorem callbackIsOfTheFramesOwnClass : Obligations.CallbackIsOfTheFramesOwnClass := by
  refine ⟨Callback.word_fields, fun s t c hwf hexec hmem => ?_⟩
  obtain ⟨cells, cnt, events, hrefresh, hdrained⟩ := exec_refresh_drained s
  obtain rfl := Host.Outcome.next.inj (hexec.symm.trans hrefresh)
  have hevent : .cb c ∈ events := by
    rcases List.mem_append.1 hmem with hmem | hmem
    · rcases List.mem_append.1 hmem with hmem | hmem
      · exact hmem
      · rcases presented_cases s with hp | ⟨g, hp, -⟩ <;> simp [hp] at hmem
    · simp [answer] at hmem
  cases hdrained with
  | free | unmatched | malformed => cases hevent
  | delivered i value hocc hin hmatch =>
    obtain ⟨hlen, hnodup⟩ := idTable_wellFormed hwf (MsgClass.ofCode s.rxsFrame.mt)
    obtain rfl : c = { cls := s.rxsFrame.mt, idx := BitVec.ofNat 8 i, value := value } := by
      simpa [event] using hevent
    have hi : (BitVec.ofNat 8 i).toNat = i := by
      obtain ⟨hlt, -⟩ := List.getElem?_eq_some_iff.1 hmatch.1
      rw [BitVec.toNat_ofNat]
      omega
    refine ⟨hocc, rfl, hin, fun j => ?_⟩
    rw [hi]
    exact hmatch.iff_of_nodup hnodup j

/-! ### The counters -/

/-- Settles O46: a REFRESH counts what its inbound half counts, an arrival its overflow, nothing else counts. -/
theorem atMostOneCauseIsCounted : Obligations.AtMostOneCauseIsCounted := by
  intro i s t hexec
  cases exec_effect hexec with
  | refreshed cells cnt events hdrained =>
    cases hdrained with
    | free | delivered => exact .inl rfl
    | unmatched hocc => exact .inr (.inl ⟨rfl, rfl, hocc⟩)
    | malformed hocc => exact .inr (.inr (.inl ⟨rfl, rfl, hocc⟩))
  | arrived mt id len data hi =>
    cases hocc : s.rxsOcc with
    | true =>
      rw [arrived_of_occupied _ _ _ _ _ hocc]
      exact .inr (.inr (.inr ⟨rfl, hi, rfl⟩))
    | false =>
      rw [arrived_of_free _ _ _ _ _ hocc]
      exact .inl rfl
  | _ => exact .inl rfl

/-! ### The presentation and the outputs of a REFRESH -/

theorem Txq.count_ne_zero_of_peek {q : Txq} {g : Frame} (h : q.peek = some g) : q.count ≠ 0 := by
  intro hempty
  rw [Txq.peek_of_empty ((Txq.count_eq_zero_iff q).1 hempty)] at h
  cases h

/-- With a free slot a REFRESH is step 2 alone, then the answer. -/
theorem refreshed_of_free {s : State} (h : s.rxsOcc = false) :
    refreshed s s.cells s.cnt [] =
      { s with inflight := handedOver s, out := presented s ++ [answer .ok 0] } := by
  rw [refreshed, ← h]
  rfl

/-- Settles O47: with a free slot a REFRESH is its presentation and the answer. -/
theorem refreshPresentsTheHeadFrame : Obligations.RefreshPresentsTheHeadFrame := by
  refine ⟨fun _ => decode_refresh, fun s hfree => ⟨fun hidle => ?_, ?_⟩⟩
  · have hidle : s.inflight = true ∨ s.txq.peek = none :=
      hidle.symm.imp_right fun hempty => Txq.peek_of_empty ((Txq.count_eq_zero_iff _).1 hempty)
    obtain ⟨hnothing, hkept⟩ := presented_of_idle hidle
    rw [exec_refresh_of_free hfree, refreshed_of_free hfree, hnothing, hkept]
    rfl
  · rintro - hinflight g hpeek _ rfl
    obtain ⟨hhead, hhanded⟩ := presented_of_head hinflight hpeek
    rw [exec_refresh_of_free hfree, refreshed_of_free hfree, hhead]
    refine ⟨fun haccept => ?_, fun hreject => ?_⟩
    · rw [hhanded, haccept]
      rfl
    · have hkept : handedOver s = s.inflight := by rw [hhanded, hreject, hinflight]
      rw [hkept]
      rfl

/-- Settles O48: events, presentation and answer of a REFRESH, each at most one. -/
theorem refreshOutputsInOrder : Obligations.RefreshOutputsInOrder := by
  intro s
  obtain ⟨cells, cnt, events, hrefresh, hdrained⟩ := exec_refresh_drained s
  refine ⟨_, events, presented s, hrefresh, rfl, rfl, hdrained.events_cases, ?_, rfl, ?_⟩
  · rcases presented_cases s with hnone | ⟨g, hg, hinflight, hpeek⟩
    · exact .inl hnone
    · exact .inr ⟨_, hg, hinflight, Txq.count_ne_zero_of_peek hpeek⟩
  · cases hdrained <;> rfl

end Sys2Proof.Machine
end

