-- ==== Sys2Proof/Proofs/Invariant.lean ====
section
/-! The invariant of Safety.lean: it holds after reset, every operation at a port of the CORE keeps it, hence every step;
what it says of the frames that are presented. -/

open Sys2Proof.Machine.Says

namespace Sys2Proof.Machine

/-! ### After reset (10_state.md R43) -/

theorem Cells.reset_fits (c : Config) : (Cells.reset c).fits c := by simp [Cells.fits]

theorem Txq.reset_slotLens (i : Fin 10) : legalLen (Txq.reset.slots[i.val]'i.isLt).len = true := by
  simp only [Txq.reset, Vector.getElem_replicate]
  rfl

/-- Reset makes the invariant hold, whatever state it finds, if the events to come are at ports. -/
theorem State.Inv.of_applyReset {s : State} (hports : ∀ e ∈ s.pending, e.atPort = true) : s.applyReset.Inv where
  ring := Txq.reset_inv
  handed := fun h => by cases h
  slotLens := Txq.reset_slotLens
  slotLen := rfl
  outbound := fun f hf => by
    rw [State.applyReset_txq, Txq.queue_of_empty rfl] at hf
    cases hf
  tables := Cells.reset_fits s.cfg
  ports := hports

/-- Settles O58: the reset state is what a reset event makes of itself. -/
theorem invariantHoldsAtReset : Obligations.InvariantHoldsAtReset :=
  fun c => State.Inv.of_applyReset (s := State.resetWith c) fun _ he => by cases he

/-! ### The parts of the invariant under an operation -/

/-- No operation adds a cell or takes one away. -/
theorem CellsAfter.keeps_fits {s : State} {i : Instr} {cells : Cells} (h : CellsAfter s i cells) {g : Config}
    (hfits : s.cells.fits g) : cells.fits g := by
  cases h <;> simpa [Cells.fits] using hfits

/-- A frame of a class's length is short enough for the wire (30_encoding.md R86, R87). -/
theorem legalLen_of_outbound {f : Frame} (h : Frame.outbound f) : legalLen f.len = true := by
  obtain ⟨-, hlen⟩ := h
  have hwidth : requiredWidth (MsgClass.ofCode f.mt) ≤ 8 := requiredWidth_le_eight _
  simp only [legalLen, decide_eq_true_eq]
  omega

theorem Txq.mem_queue_enq {q : Txq} {f g : Frame} (hinv : q.inv) (h : g ∈ (q.enq f).1.queue) :
    g ∈ q.queue ∨ g = f := by
  by_cases hfull : q.count.val = 10
  · rw [Txq.enq_full f hfull] at h
    exact .inl h
  · rw [Txq.enq_queue f hinv hfull, List.mem_append, List.mem_singleton] at h
    exact h

theorem Txq.count_le_enq (q : Txq) (f : Frame) : q.count.val ≤ (q.enq f).1.count.val := by
  rcases Txq.enq_cases f q with ⟨-, h⟩ | ⟨-, -, -, -, -, h⟩
  · rw [h]
  · omega

/-- `INFLIGHT` after a REFRESH stands for a frame in the buffer (44_refresh_tx.md R233). -/
theorem count_pos_of_handedOver {s : State} (hinv : s.inflight = true → 0 < s.txq.count.val)
    (h : handedOver s = true) : 0 < s.txq.count.val := by
  simp only [handedOver, Bool.or_eq_true, Bool.and_eq_true, decide_eq_true_eq] at h
  rcases h with hinflight | ⟨hne, -⟩
  · exact hinv hinflight
  · omega

theorem clamped_legalLen (len : BitVec 4) : legalLen (if len.toNat ≤ 8 then len else 8) = true := by
  rw [← clampLen_eq]
  exact stored_legalLen { mt := 0, id := 0, len := len, data := 0 }

/-! ### Every operation at a port -/

/-- An operation keeps the invariant unless it is a bare ENQ or COMMIT, which stand at no port (log 7). -/
theorem exec_keeps_inv {i : Instr} {s t : State} (hinv : s.Inv) (hport : (encode i).port ≠ .txq)
    (hexec : exec i s = .next t) : t.Inv := by
  have htables {cells : Cells} (h : cells = t.cells) : cells.fits s.cfg :=
    h ▸ (exec_cellsAfter hexec).keeps_fits hinv.tables
  have heffect : Effect s i t := exec_effect hexec
  have hring : t.txq.inv := heffect.keeps_ring hinv.ring
  cases heffect with
  | status | badIndex | selected | ignored => exact { hinv with }
  | written cells f hi hout =>
    exact { hinv with
      ring := hring
      handed := fun h => (hinv.handed h).trans_le (s.txq.count_le_enq f)
      slotLens := Txq.enq_slotLens (legalLen_of_outbound hout) hinv.slotLens
      outbound := fun g hg => (Txq.mem_queue_enq hinv.ring hg).elim (hinv.outbound g) fun h => h ▸ hout
      tables := htables rfl }
  | refreshed cells cnt events =>
    exact { hinv with
      handed := count_pos_of_handedOver hinv.handed
      tables := htables rfl }
  | arrived mt id len data =>
    cases hocc : s.rxsOcc with
    | true =>
      rw [arrived_of_occupied _ _ _ _ _ hocc]
      exact { hinv with }
    | false =>
      rw [arrived_of_free _ _ _ _ _ hocc]
      exact { hinv with slotLen := clamped_legalLen len }
  | completed =>
    exact { hinv with
      ring := hring
      handed := fun h => by cases h
      slotLens := fun k => by simpa only [Txq.commit_slots] using hinv.slotLens k
      outbound := fun g hg => hinv.outbound g (List.mem_of_mem_tail (Txq.commit_queue s.txq ▸ hg)) }
  | enqueued f => exact absurd rfl hport
  | committed => exact absurd rfl hport

/-! ### Every step -/

/-- Taking an event, and changing the outputs, is nothing to the invariant. -/
theorem State.Inv.take {s : State} (hinv : s.Inv) {word : PortWord} {time : Word} {accept : Bool} {rest : List Stimulus}
    (hpending : s.pending = .op word time accept :: rest) : (s.take time accept rest).Inv ∧ word.atPort = true := by
  have hports := hinv.ports
  rw [hpending, List.forall_mem_cons] at hports
  exact ⟨{ hinv with ports := hports.2 }, hports.1⟩

theorem port_ne_txq_of_atPort {word : PortWord} {i : Instr} (hport : word.atPort = true)
    (hdecode : decode word = .ok i) : (encode i).port ≠ .txq := by
  rw [encode_port_of_decode hdecode]
  intro htxq
  simp [PortWord.atPort, htxq] at hport

/-- Settles O59: by the cases of a step. -/
theorem everyStepKeepsTheInvariant : Obligations.EveryStepKeepsTheInvariant := by
  intro s t hinv hstep
  rcases step_cases hstep with
    ⟨-, rfl⟩ | ⟨rest, hpending, rfl⟩ | ⟨word, time, accept, rest, hpending, ⟨i, hdecode, hexec⟩ | ⟨r, -, rfl⟩⟩
  · exact { hinv with }
  · exact .of_applyReset fun e he => hinv.ports e (hpending ▸ List.mem_cons_of_mem _ he)
  · obtain ⟨htake, hport⟩ := hinv.take hpending
    exact exec_keeps_inv htake (port_ne_txq_of_atPort hport hdecode) hexec
  · obtain ⟨htake, -⟩ := hinv.take hpending
    rw [State.reject_eq]
    exact { htake with }

/-! ### Presentations -/

/-- A presentation is of the head frame, which was not with the driver: only a REFRESH presents (44_refresh_tx.md R232). -/
theorem Effect.presents_head {i : Instr} {s t : State} {p : TxPresentation} (h : Effect s i t) (hp : .tx p ∈ t.out) :
    s.inflight = false ∧ ∃ g, s.txq.peek = some g ∧ p = TxPresentation.ofFrame g := by
  cases h with
  | refreshed cells cnt events hdrained =>
    rcases List.mem_append.1 hp with hp | hp
    · rcases List.mem_append.1 hp with hp | hp
      · rcases hdrained.events_cases with rfl | ⟨c, rfl, -⟩ <;> simp at hp
      · rcases presented_cases s with hnone | ⟨g, hg, hinflight, hpeek⟩
        · simp [hnone] at hp
        · exact ⟨hinflight, g, hpeek, by simpa [hg] using hp⟩
    · simp [answer] at hp
  | arrived => simp at hp
  | selected n o _ ho =>
    obtain rfl := List.mem_singleton.1 hp
    exact ho.elim
  | status | badIndex | written => simp [answer] at hp
  | completed | ignored | committed => cases hp
  | enqueued => simp at hp

theorem step_presents_head {s t : State} {p : TxPresentation} (hstep : step s = .next t) (hp : .tx p ∈ t.out) :
    s.inflight = false ∧ ∃ g, s.txq.peek = some g ∧ p = TxPresentation.ofFrame g := by
  rcases step_cases hstep with ⟨-, rfl⟩ | ⟨rest, -, rfl⟩ | ⟨word, time, accept, rest, -, ⟨i, -, hexec⟩ | ⟨r, -, rfl⟩⟩
  · cases hp
  · cases hp
  · exact (exec_effect hexec).presents_head hp
  · rw [State.reject_eq] at hp
    split at hp <;> simp [answer] at hp

/-- The head frame is queued, so it is one that a write built (42_write.md R180). -/
theorem State.Inv.outbound_of_peek {s : State} (hinv : s.Inv) {g : Frame} (hpeek : s.txq.peek = some g) :
    Frame.outbound g :=
  hinv.outbound g (List.mem_of_mem_head? (by rw [Txq.queue_head, hpeek]; rfl))

theorem Frame.wid_class (f : Frame) : f.wid.extractLsb' 8 3 = f.mt :=
  (slice_append_high f.mt f.id 0 3).trans (slice_all _)

/-- Settles O60: the presented frame is the head, and the queued frames are outbound. -/
theorem presentationsAreOutboundDataFrames : Obligations.PresentationsAreOutboundDataFrames := by
  intro s t p hinv hstep hp
  obtain ⟨hinflight, g, hpeek, rfl⟩ := step_presents_head hstep hp
  obtain ⟨hout, hlen⟩ := hinv.outbound_of_peek hpeek
  have hclass : (TxPresentation.ofFrame g).wid.extractLsb' 8 3 = g.mt := Frame.wid_class g
  rw [hclass]
  refine ⟨rfl, rfl, ?_, hlen, hinflight, g, hpeek, rfl, rfl, rfl⟩
  have hlt := mt (inbound_iff g.mt).2 (by simp [hout])
  omega

end Sys2Proof.Machine
end

