-- ==== Sys2Proof/Proofs/Runs.lean ====
section
/-! Two facts about runs of any length, each a step lemma and an induction: a frame in flight stays at the head and nothing
is presented (44_refresh_tx.md section 3); an outbound object keeps what was last written to it (42_write.md section 3). -/

open Sys2Proof.Machine.Says

namespace Sys2Proof.Machine

/-! ### A frame in flight -/

/-- `t` follows `s` with a frame in flight, and it is the head frame of `s`. -/
structure HeadKept (s t : State) : Prop where
  inflight : t.inflight = true
  ring : t.txq.inv
  head : t.txq.head = s.txq.head
  frame : t.txq.peek = s.txq.peek
  count : s.txq.count.val ≤ t.txq.count.val

theorem HeadKept.trans {s t u : State} (hst : HeadKept s t) (htu : HeadKept t u) : HeadKept s u where
  inflight := htu.inflight
  ring := htu.ring
  head := htu.head.trans hst.head
  frame := htu.frame.trans hst.frame
  count := hst.count.trans htu.count

/-- ENQ behind a head frame leaves the head frame. -/
theorem Txq.enq_head_kept {q : Txq} (f : Frame) (hinv : q.inv) (hpos : 0 < q.count.val) :
    (q.enq f).1.head = q.head ∧ (q.enq f).1.peek = q.peek := by
  by_cases hfull : q.count.val = 10
  · rw [Txq.enq_full f hfull]
    exact ⟨rfl, rfl⟩
  · obtain ⟨-, -, hhead, -⟩ := Txq.enq_room f hfull
    have hne : q.queue ≠ [] := fun h => by
      have := q.queue_length
      rw [h, List.length_nil] at this
      omega
    refine ⟨hhead, ?_⟩
    rw [← Txq.queue_head, ← Txq.queue_head, Txq.enq_queue f hinv hfull, List.head?_append_of_ne_nil _ hne]

/-- With a frame in flight every operation but SENDCOMPLETE and COMMIT keeps it at the head (44_refresh_tx.md R232). -/
theorem Effect.keeps_head {i : Instr} {s t : State} (h : Effect s i t) (hinv : s.txq.inv) (hinflight : s.inflight = true)
    (hpos : 0 < s.txq.count.val) (hi : i ≠ .sendComplete ∧ i ≠ .commit) : HeadKept s t := by
  obtain ⟨hcomplete, hcommit⟩ := hi
  have hring := h.keeps_ring hinv
  cases h with
  | status | badIndex | selected => exact ⟨hinflight, hring, rfl, rfl, le_rfl⟩
  | written cells f =>
    obtain ⟨hhead, hpeek⟩ := Txq.enq_head_kept f hinv hpos
    exact ⟨hinflight, hring, hhead, hpeek, s.txq.count_le_enq f⟩
  | enqueued f =>
    obtain ⟨hhead, hpeek⟩ := Txq.enq_head_kept f hinv hpos
    exact ⟨hinflight, hring, hhead, hpeek, s.txq.count_le_enq f⟩
  | refreshed cells cnt events => exact ⟨by simp [Says.refreshed, handedOver, hinflight], hring, rfl, rfl, le_rfl⟩
  | arrived =>
    refine ⟨?_, hring, ?_, ?_, ?_⟩
    · rw [arrived_inflight, hinflight]
    all_goals rw [arrived_txq]
  | completed | ignored => exact absurd rfl hcomplete
  | committed => exact absurd rfl hcommit

theorem not_frees_of_decode {word : PortWord} {time : Word} {accept : Bool} {i : Instr}
    (h : (Stimulus.op word time accept).frees = false) (hdecode : decode word = .ok i) :
    i ≠ .sendComplete ∧ i ≠ .commit := by
  constructor <;> rintro rfl <;> simp [Stimulus.frees, hdecode] at h

/-- With a frame in flight a step whose event does not free it keeps it at the head, and presents nothing. -/
theorem step_keeps_head {s t : State} (hstep : step s = .next t) (hinv : s.txq.inv) (hinflight : s.inflight = true)
    (hpos : 0 < s.txq.count.val) (hevent : ∀ e, s.pending.head? = some e → e.frees = false) :
    HeadKept s t ∧ ∀ p, .tx p ∉ t.out := by
  refine ⟨?_, fun p hp => ?_⟩
  · rcases step_cases hstep with
      ⟨-, rfl⟩ | ⟨rest, hpending, -⟩ | ⟨word, time, accept, rest, hpending, ⟨i, hdecode, hexec⟩ | ⟨r, -, rfl⟩⟩
    · exact ⟨hinflight, hinv, rfl, rfl, le_rfl⟩
    · cases hevent .reset (by rw [hpending]; rfl)
    · have hi := not_frees_of_decode (hevent _ (by rw [hpending]; rfl)) hdecode
      obtain ⟨hflight, hring, hhead, hframe, hcount⟩ := (exec_effect hexec).keeps_head hinv hinflight hpos hi
      exact ⟨hflight, hring, hhead, hframe, hcount⟩
    · rw [State.reject_eq]
      exact ⟨hinflight, hinv, rfl, rfl, le_rfl⟩
  · obtain ⟨hidle, -⟩ := step_presents_head hstep hp
    rw [hinflight] at hidle
    cases hidle

theorem run_one {s t : State} (h : step s = .next t) : Sys2Proof.core.run 1 s = .next t := run_succ 0 h

/-- A run of one or more steps without its removal keeps the frame in flight at the head. -/
theorem run_keeps_head (n : Nat) : ∀ {s : State}, s.txq.inv → s.inflight = true → 0 < s.txq.count.val →
    (∀ e ∈ s.pending.take (n + 1), e.frees = false) →
      ∃ t, Sys2Proof.core.run (n + 1) s = .next t ∧ HeadKept s t ∧ ∀ p, .tx p ∉ t.out := by
  induction n with
  | zero =>
    intro s hinv hinflight hpos hevents
    obtain ⟨t, hstep, -⟩ := step_next s
    refine ⟨t, run_one hstep, step_keeps_head hstep hinv hinflight hpos fun e he => hevents e ?_⟩
    rw [List.take_one, he]
    exact List.mem_singleton.2 rfl
  | succ n ih =>
    intro s hinv hinflight hpos hevents
    obtain ⟨u, hstep, -, hpending⟩ := step_next s
    have hfirst : ∀ e, s.pending.head? = some e → e.frees = false := fun e he =>
      hevents e (List.mem_of_mem_head? (by rw [List.head?_take, if_neg (by omega), he]; rfl))
    obtain ⟨hkept, -⟩ := step_keeps_head hstep hinv hinflight hpos hfirst
    obtain ⟨t, hrun, hkept', hnone⟩ := ih hkept.ring hkept.inflight (hpos.trans_le hkept.count) fun e he =>
      hevents e (List.mem_of_mem_tail (by rw [List.tail_take_eq_take_tail]; exact hpending ▸ he))
    exact ⟨t, (run_succ (n + 1) hstep).trans hrun, hkept.trans hkept', hnone⟩

/-- Settles O50: the run lemma. -/
theorem nothingIsPresentedWhileAFrameIsInFlight : Obligations.NothingIsPresentedWhileAFrameIsInFlight := by
  intro n s hinv hinflight hpos hevents
  obtain ⟨t, hrun, hkept, hnone⟩ := run_keeps_head n hinv hinflight hpos hevents
  exact ⟨t, hrun, hkept.inflight, hkept.head, hkept.frame, hkept.count, hnone⟩

/-! ### The last write to an object -/

/-- The write of class `c` to an object of its table makes the cells what it stores, queued or not (42_write.md R185). -/
theorem State.applyWrite_cells_of_lt {c : MsgClass} {idx : Index} {store : State → State} {enc : BitVec 4 × Payload}
    {s : State} {cells : Cells} (hidx : idx.toNat < (idTable s.cfg c).length)
    (hstore : store s.start = { s.start with cells := cells }) : (s.applyWrite c idx store enc).cells = cells := by
  rw [State.applyWrite_of_some enc (List.getElem?_eq_getElem hidx) hstore]

section
variable {α β : Type} {write : Index → α → Instr} {cells : Cells → List β}
  (hother : ∀ (i : Instr) (s t : State) (k : Nat), exec i s = .next t → (cells t.cells)[k]? ≠ (cells s.cells)[k]? →
    ∃ idx x, i = write idx x ∧ idx.toNat = k)
include hother

/-- A step that is neither a reset nor a write to the object keeps its cell (42_write.md R188). -/
theorem step_keeps_cell {s t : State} {idx : Index} (hstep : step s = .next t)
    (hspared : ∀ e, s.pending.head? = some e → e ≠ .reset ∧ ∀ w t a y, e = .op w t a → decode w ≠ .ok (write idx y)) :
    (cells t.cells)[idx.toNat]? = (cells s.cells)[idx.toNat]? := by
  rcases step_cases hstep with
    ⟨-, rfl⟩ | ⟨rest, hpending, -⟩ | ⟨word, time, accept, rest, hpending, ⟨i, hdecode, hexec⟩ | ⟨r, -, rfl⟩⟩
  · rfl
  · exact absurd rfl (hspared .reset (by rw [hpending]; rfl)).1
  · by_contra hne
    obtain ⟨idx', y, rfl, hidx⟩ := hother i _ t _ hexec hne
    obtain rfl : idx' = idx := BitVec.eq_of_toNat_eq hidx
    exact (hspared _ (by rw [hpending]; rfl)).2 _ _ _ y rfl hdecode
  · rw [State.reject_eq]
    rfl

theorem run_keeps_cell (idx : Index) (rest : List Stimulus) (between : List Stimulus) : ∀ {s : State},
    s.pending = between ++ rest →
    (∀ e ∈ between, e ≠ .reset ∧ ∀ w t a y, e = .op w t a → decode w ≠ .ok (write idx y)) →
      ∃ t, Sys2Proof.core.run between.length s = .next t ∧
        (cells t.cells)[idx.toNat]? = (cells s.cells)[idx.toNat]? ∧ t.pending = rest := by
  induction between with
  | nil => exact fun {s} hpending _ => ⟨s, rfl, rfl, hpending⟩
  | cons e more ih =>
    intro s hpending hspared
    obtain ⟨hfirst, hmore⟩ := List.forall_mem_cons.1 hspared
    obtain ⟨u, hstep, -, hpending'⟩ := step_next s
    have hcell := step_keeps_cell hother (idx := idx) hstep fun e' he' => by
      rw [hpending] at he'
      cases he'
      exact hfirst
    obtain ⟨t, hrun, hcell', hrest⟩ := ih (s := u) (by rw [hpending', hpending]; rfl) hmore
    exact ⟨t, (run_succ more.length hstep).trans hrun, hcell'.trans hcell, hrest⟩

/-- The rule for one outbound class: its write stores the cell, and nothing else changes it. -/
theorem lastWriteStays {table : Config → List Identifier} {cell : α → Word → β}
    (hwrite : ∀ (idx : Index) (x : α) (s t : State), s.cells.fits s.cfg → idx.toNat < (table s.cfg).length →
      exec (write idx x) s = .next t → (cells t.cells)[idx.toNat]? = some (cell x s.time)) :
    LastWriteStays table write cells cell := by
  intro s word idx x t2 accept between rest hfits hidx hpending hdecode hspared
  obtain ⟨u, hexec⟩ := exec_next (write idx x) (s.take t2 accept (between ++ rest))
  have hstep : step s = .next u := (step_of_decoded hpending hdecode).trans hexec
  have hstored : (cells u.cells)[idx.toNat]? = some (cell x t2) :=
    hwrite idx x (s.take t2 accept (between ++ rest)) u hfits hidx hexec
  obtain ⟨-, hleft, -⟩ := (exec_effect hexec).keeps_environment
  obtain ⟨t, hrun, hcell, hrest⟩ := run_keeps_cell hother idx rest between hleft hspared
  exact ⟨t, (run_succ between.length hstep).trans hrun, hcell.trans hstored, hrest⟩

end

/-- Settles O38: the rule at each of the four outbound classes; that nothing else changes the cell is O37. -/
theorem timestampIsThatOfTheLastWrite : Obligations.TimestampIsThatOfTheLastWrite := by
  refine ⟨lastWriteStays ?_ ?_, lastWriteStays ?_ ?_, lastWriteStays ?_ ?_, lastWriteStays ?_ ?_⟩
  · intro i s t k hexec
    obtain ⟨hsi, -⟩ := cellsChangeOnlyByTheirOperation i s t hexec
    exact hsi k
  · rintro idx x s _ ⟨hfits, -⟩ hidx ⟨⟩
    rw [State.applyWrite_cells_of_lt hidx rfl]
    exact List.getElem?_set_self (hfits ▸ hidx)
  · intro i s t k hexec
    obtain ⟨-, hdi, -⟩ := cellsChangeOnlyByTheirOperation i s t hexec
    exact hdi k
  · rintro idx x s _ ⟨-, hfits, -⟩ hidx ⟨⟩
    rw [State.applyWrite_cells_of_lt hidx rfl]
    exact List.getElem?_set_self (hfits ▸ hidx)
  · intro i s t k hexec
    obtain ⟨-, -, hmv16, -⟩ := cellsChangeOnlyByTheirOperation i s t hexec
    exact hmv16 k
  · rintro idx x s _ ⟨-, -, hfits, -⟩ hidx ⟨⟩
    rw [State.applyWrite_cells_of_lt hidx rfl]
    exact List.getElem?_set_self (hfits ▸ hidx)
  · intro i s t k hexec
    obtain ⟨-, -, -, hmv32, -⟩ := cellsChangeOnlyByTheirOperation i s t hexec
    exact hmv32 k
  · rintro idx x s _ ⟨-, -, -, hfits, -⟩ hidx ⟨⟩
    rw [State.applyWrite_cells_of_lt hidx rfl]
    exact List.getElem?_set_self (hfits ▸ hidx)

end Sys2Proof.Machine
end

