-- ==== Sys2Proof/Proofs/Noninterference.lean ====
section
/-! Who writes which register and who reads which input (10_state.md sections 6 and 7): the writers register by register;
what a write does not look at; the pins that an operation does not sample. -/

open Sys2Proof.Machine.Says

namespace Sys2Proof.Machine

/-! ### The writers of each register, from what an operation can do -/

theorem Txq.enq_head (f : Frame) (q : Txq) : (q.enq f).1.head = q.head := by
  rcases Txq.enq_cases f q with ⟨-, h⟩ | ⟨-, -, -, h, -⟩
  · rw [h]
  · exact h

theorem Txq.commit_tail (q : Txq) : q.commit.tail = q.tail := by
  rcases Txq.commit_cases q with ⟨-, h⟩ | ⟨-, -, -, h, -⟩
  · rw [h]
  · exact h

section
variable {i : Instr} {s t : State}

theorem Effect.head_writers (h : Effect s i t) (hne : t.txq.head ≠ s.txq.head) : i = .sendComplete ∨ i = .commit := by
  cases h with
  | completed => exact .inl rfl
  | committed => exact .inr rfl
  | written cells f => exact absurd (Txq.enq_head f s.txq) hne
  | enqueued f => exact absurd (Txq.enq_head f s.txq) hne
  | arrived => exact absurd (by rw [arrived_txq]) hne
  | _ => exact absurd rfl hne

/-- `TAIL` and the slots. -/
theorem Effect.tail_writers (h : Effect s i t) (hne : t.txq.tail ≠ s.txq.tail ∨ t.txq.slots ≠ s.txq.slots) :
    isWrite i ∨ ∃ f, i = .enq f := by
  cases h with
  | written cells f hi => exact .inl hi
  | enqueued f => exact .inr ⟨f, rfl⟩
  | completed | committed => simp [Txq.commit_tail, Txq.commit_slots] at hne
  | arrived => simp at hne
  | _ => exact absurd hne (by simp [Says.refreshed])

theorem Effect.count_writers (h : Effect s i t) (hne : t.txq.count ≠ s.txq.count) :
    isWrite i ∨ (∃ f, i = .enq f) ∨ i = .sendComplete ∨ i = .commit := by
  cases h with
  | written cells f hi => exact .inl hi
  | enqueued f => exact .inr (.inl ⟨f, rfl⟩)
  | completed => exact .inr (.inr (.inl rfl))
  | committed => exact .inr (.inr (.inr rfl))
  | arrived => exact absurd (by rw [arrived_txq]) hne
  | _ => exact absurd rfl hne

theorem Effect.inflight_writers (h : Effect s i t) (hne : t.inflight ≠ s.inflight) : i = .refresh ∨ i = .sendComplete := by
  cases h with
  | refreshed => exact .inl rfl
  | completed => exact .inr rfl
  | arrived => exact absurd (arrived_inflight ..) hne
  | _ => exact absurd rfl hne

theorem Effect.rxsOcc_writers (h : Effect s i t) :
    (s.rxsOcc = false → t.rxsOcc = true → isArrival i) ∧ (s.rxsOcc = true → t.rxsOcc = false → i = .refresh) := by
  cases h with
  | arrived mt id len data hi =>
    refine ⟨fun _ _ => hi, fun _ hfree => ?_⟩
    rw [arrived_rxsOcc] at hfree
    cases hfree
  | refreshed =>
    refine ⟨fun _ hocc => ?_, fun _ _ => rfl⟩
    cases hocc
  | _ =>
    refine ⟨fun hfree hocc => ?_, fun hocc hfree => ?_⟩
    all_goals exact absurd (hocc.symm.trans hfree) (by decide)

theorem Effect.rxsFrame_writers (h : Effect s i t) (hne : t.rxsFrame ≠ s.rxsFrame) : isArrival i ∧ s.rxsOcc = false := by
  cases h with
  | arrived mt id len data hi =>
    refine ⟨hi, ?_⟩
    cases hocc : s.rxsOcc with
    | true => rw [arrived_of_occupied _ _ _ _ _ hocc] at hne; exact absurd rfl hne
    | false => rfl
  | _ => exact absurd rfl hne

end

theorem CellsAfter.outbound_writers {s : State} {i : Instr} {c : Cells} (h : CellsAfter s i c)
    (hne : c.si ≠ s.cells.si ∨ c.di ≠ s.cells.di ∨ c.mv16 ≠ s.cells.mv16 ∨ c.mv32 ≠ s.cells.mv32) : isWrite i := by
  cases h with
  | si | di | mv16 | mv32 => trivial
  | _ => simp at hne

theorem CellsAfter.inbound_writers {s : State} {i : Instr} {c : Cells} (h : CellsAfter s i c)
    (hne : c.sc ≠ s.cells.sc ∨ c.dc ≠ s.cells.dc ∨ c.sp16 ≠ s.cells.sp16 ∨ c.sp32 ≠ s.cells.sp32) : i = .refresh := by
  cases h with
  | sc | dc | sp16 | sp32 => rfl
  | _ => simp at hne

/-- Who counts what, from the one counter that an operation can move. -/
theorem counter_writers {i : Instr} {s t : State} (hexec : exec i s = .next t) :
    ((t.cnt.unmatched ≠ s.cnt.unmatched ∨ t.cnt.malformed ≠ s.cnt.malformed) → i = .refresh) ∧
    (t.cnt.inovf ≠ s.cnt.inovf → isArrival i) := by
  rcases atMostOneCauseIsCounted i s t hexec with h | ⟨h, hi, -⟩ | ⟨h, hi, -⟩ | ⟨h, hi, -⟩ <;> rw [h]
  · simp
  · exact ⟨fun _ => hi, fun hne => absurd rfl hne⟩
  · exact ⟨fun _ => hi, fun hne => absurd rfl hne⟩
  · exact ⟨fun hne => by simp at hne, fun _ => hi⟩

/-- Settles O55: the writers of each register, row by row. -/
theorem registersHaveTheirWriters : Obligations.RegistersHaveTheirWriters := by
  intro i s t hexec
  have heffect : Effect s i t := exec_effect hexec
  have hcells : CellsAfter s i t.cells := exec_cellsAfter hexec
  obtain ⟨hset, hcleared⟩ := heffect.rxsOcc_writers
  obtain ⟨hrefreshCounters, hinovf⟩ := counter_writers hexec
  obtain ⟨hcfg, hpending, htime, haccept⟩ := heffect.keeps_environment
  exact ⟨heffect.head_writers, fun hne => heffect.tail_writers (.inl hne), fun hne => heffect.tail_writers (.inr hne),
    heffect.count_writers, heffect.inflight_writers, hset, hcleared, heffect.rxsFrame_writers,
    hcells.outbound_writers, hcells.inbound_writers, hrefreshCounters, hinovf, htime, haccept, hpending, hcfg⟩

/-! ### What a write does not look at (42_write.md R180) -/

/-- The same state, but for the handoff slot, the counters, the last outputs and the `tx_accept` level. -/
def State.around (occ : Bool) (frame : Frame) (cnt : Counters) (out : List Output) (accept : Bool) (s : State) : State :=
  { s with rxsOcc := occ, rxsFrame := frame, cnt := cnt, out := out, txAccept := accept }

/-- `u` is `s` after a write: cells and buffer may differ, `HEAD` and `INFLIGHT` do not. -/
def AfterWrite (s u : State) : Prop :=
  u.txq.head = s.txq.head ∧ ∃ cells q out, u = { s with cells := cells, txq := q, out := out }

/-- The rule for APPLYWRITE, with a `store` that makes the cells `cells`. -/
theorem exec_around_of_applyWrite {i : Instr} {c : MsgClass} {idx : Index} {store : State → State}
    {enc : BitVec 4 × Payload} {s : State} {cells : Cells}
    (hexec : ∀ occ frame cnt out accept, exec i (s.around occ frame cnt out accept) =
      .next ((s.around occ frame cnt out accept).applyWrite c idx store enc))
    (hstore : ∀ u : State, u.cells = s.cells → store u = { u with cells := cells }) :
    ∃ u, AfterWrite s u ∧ ∀ occ frame cnt out accept,
      exec i (s.around occ frame cnt out accept) = .next (u.around occ frame cnt u.out accept) := by
  cases hid : (idTable s.cfg c)[idx.toNat]? with
  | none =>
    refine ⟨{ s with out := [answer .badIndex 0] }, ⟨rfl, _, _, _, rfl⟩, fun occ frame cnt out accept => ?_⟩
    rw [hexec, State.applyWrite_of_none (s := s.around occ frame cnt out accept) store enc hid]
    rfl
  | some id =>
    refine ⟨_, ⟨Txq.enq_head (writtenFrame c id enc) s.txq, cells, (s.txq.enq (writtenFrame c id enc)).1,
      [answer (if (s.txq.enq (writtenFrame c id enc)).2 then .ok else .bufferFull) 0], rfl⟩,
      fun occ frame cnt out accept => ?_⟩
    rw [hexec, State.applyWrite_of_some (s := s.around occ frame cnt out accept) enc hid (hstore _ rfl)]
    rfl

/-- A write does the same whatever the slot, the counters and the `tx_accept` level are, and leaves them. -/
theorem exec_write_around {i : Instr} (hi : isWrite i) (s : State) :
    ∃ u, AfterWrite s u ∧ ∀ occ frame cnt out accept,
      exec i (s.around occ frame cnt out accept) = .next (u.around occ frame cnt u.out accept) := by
  cases i with
  | wrSi idx x =>
    exact exec_around_of_applyWrite (enc := encIndication x s.time)
      (store := State.setSi idx.toNat { state := x, ts := s.time })
      (fun _ _ _ _ _ => rfl) fun u hu => by rw [State.setSi, hu]
  | wrDi idx x =>
    exact exec_around_of_applyWrite (enc := encIndication x s.time)
      (store := State.setDi idx.toNat { state := x, ts := s.time })
      (fun _ _ _ _ _ => rfl) fun u hu => by rw [State.setDi, hu]
  | wrMv16 idx x =>
    exact exec_around_of_applyWrite (enc := encMeasured16 x s.time)
      (store := State.setMv16 idx.toNat { value := x, ts := s.time })
      (fun _ _ _ _ _ => rfl) fun u hu => by rw [State.setMv16, hu]
  | wrMv32 idx x =>
    exact exec_around_of_applyWrite (enc := encValue32 x)
      (store := State.setMv32 idx.toNat { value := x, ts := s.time })
      (fun _ _ _ _ _ => rfl) fun u hu => by rw [State.setMv32, hu]
  | _ => exact hi.elim

/-- An arrival puts its frame or its count around whatever else the state holds. -/
theorem arrived_eq_around (mt : BitVec 3) (id : Identifier) (len : BitVec 4) (data : Payload) (s : State) :
    ∃ frame cnt, ∀ u : State,
      arrived (u.around s.rxsOcc s.rxsFrame s.cnt u.out s.txAccept) mt id len data =
        u.around true frame cnt [] s.txAccept := by
  cases s.rxsOcc with
  | true => exact ⟨s.rxsFrame, { s.cnt with inovf := s.cnt.inovf + 1 }, fun u => arrived_of_occupied _ _ _ _ _ rfl⟩
  | false =>
    exact ⟨{ mt := mt, id := id, len := (if len.toNat ≤ 8 then len else 8), data := data }, s.cnt,
      fun u => arrived_of_free _ _ _ _ _ rfl⟩

/-- Settles O57: the reception works around what the write reads and stores. -/
theorem receptionAndWriteCommute : Obligations.ReceptionAndWriteCommute := by
  intro f i s hi
  obtain ⟨u, ⟨hhead, cells, q, out, rfl⟩, hwrite⟩ := exec_write_around hi s
  obtain ⟨frame, cnt, harrived⟩ := arrived_eq_around f.mt f.id f.len f.data s
  refine ⟨_, _, _, _, (exec_rx f s).trans (congrArg Host.Outcome.next (harrived s)), hwrite _ _ _ _ _,
    hwrite s.rxsOcc s.rxsFrame s.cnt s.out s.txAccept, (exec_rx f _).trans (congrArg Host.Outcome.next (harrived _)),
    rfl, rfl, rfl, hhead⟩

/-! ### The pins -/

theorem State.receive_at_levels (f : Frame) (s : State) (time : Word) (accept : Bool) :
    State.receive f { s with time := time, txAccept := accept } =
      { s.receive f with time := time, txAccept := accept } := by
  unfold State.receive
  split <;> rfl

theorem State.answerDec_at_levels (r : Option (Word × Word)) (s : State) (time : Word) (accept : Bool) :
    State.answerDec r { s with time := time, txAccept := accept } =
      { s.answerDec r with time := time, txAccept := accept } := by
  cases r <;> rfl

/-- An operation other than the writes and REFRESH does the same at all levels of the two input pins. -/
theorem exec_at_levels {i : Instr} {s t : State} (hexec : exec i s = .next t) (hwrite : ¬ isWrite i)
    (hrefresh : i ≠ .refresh) (time : Word) (accept : Bool) :
    exec i { s with time := time, txAccept := accept } = .next { t with time := time, txAccept := accept } := by
  cases i with
  | wrSi | wrDi | wrMv16 | wrMv32 => exact absurd trivial hwrite
  | refresh => exact absurd rfl hrefresh
  | nop | rdStat | enq | commit => cases hexec; rfl
  | encSi | encDi | encMv16 | encMv32 | encSc | encDc | encSp16 | encSp32 => cases hexec; rfl
  | rdCnt sel =>
    cases hv : s.cnt.select sel with
    | none => cases (exec_rdCnt_of_none hv).symm.trans hexec; exact exec_rdCnt_of_none hv
    | some v => cases (exec_rdCnt_of_some hv).symm.trans hexec; exact exec_rdCnt_of_some hv
  | sendComplete =>
    rcases Bool.eq_false_or_eq_true s.inflight with hin | hin
    · cases (exec_sendComplete_of_inflight hin).symm.trans hexec; exact exec_sendComplete_of_inflight hin
    · cases (exec_sendComplete_of_idle hin).symm.trans hexec; exact exec_sendComplete_of_idle hin
  | peek =>
    cases hp : s.txq.peek with
    | none => cases (exec_peek_of_none hp).symm.trans hexec; exact exec_peek_of_none hp
    | some f => cases (exec_peek_of_some hp).symm.trans hexec; exact exec_peek_of_some hp
  | rx | frameSi | frameDi | frameMv16 | frameMv32 | frameSc | frameDc | frameSp16 | frameSp32 =>
    cases hexec
    exact congrArg Host.Outcome.next (State.receive_at_levels _ s time accept)
  | decSi | decDi | decMv16 | decMv32 | decSc | decDc | decSp16 | decSp32 =>
    cases hexec
    exact congrArg Host.Outcome.next (State.answerDec_at_levels _ s time accept)

/-- A REFRESH samples `tx_accept` only when it presents a frame (44_refresh_tx.md R233). -/
theorem exec_refresh_at_accept {s t : State} (hexec : exec .refresh s = .next t) (accept : Bool)
    (hidle : s.txq.count = 0 ∨ s.inflight = true) :
    exec .refresh { s with txAccept := accept } = .next { t with txAccept := accept } := by
  obtain ⟨cells, cnt, events, -, hlevels⟩ := exec_refresh_at_levels s
  obtain rfl := Host.Outcome.next.inj (hexec.symm.trans (hlevels s.time s.txAccept))
  have hidle : s.inflight = true ∨ s.txq.peek = none :=
    hidle.symm.imp_right fun hempty => Txq.peek_of_empty ((Txq.count_eq_zero_iff _).1 hempty)
  have hkept : handedOver { s with txAccept := accept } = handedOver s :=
    (presented_of_idle (s := { s with txAccept := accept }) hidle).2.trans (presented_of_idle hidle).2.symm
  rw [hlevels s.time accept, refreshed, hkept]
  rfl

/-- Settles O56: by whether the operation is a write, a REFRESH, or neither. -/
theorem inputsAreSampledOnlyByTheirOperations : Obligations.InputsAreSampledOnlyByTheirOperations := by
  intro i s t hexec
  obtain ⟨-, -, htime, haccept⟩ := (exec_effect hexec).keeps_environment
  refine ⟨fun hwrite time => ?_, fun hi accept => ?_⟩
  · by_cases hrefresh : i = .refresh
    · subst hrefresh
      obtain ⟨cells, cnt, events, -, hlevels⟩ := exec_refresh_at_levels s
      obtain rfl := Host.Outcome.next.inj (hexec.symm.trans (hlevels s.time s.txAccept))
      exact hlevels time s.txAccept
    · have hpin : { t with time := time } = { t with time := time, txAccept := s.txAccept } := by rw [← haccept]
      rw [hpin]
      exact exec_at_levels hexec hwrite hrefresh time s.txAccept
  · by_cases hwrite : isWrite i
    · obtain ⟨u, -, h⟩ := exec_write_around hwrite s
      obtain rfl := Host.Outcome.next.inj (hexec.symm.trans (h s.rxsOcc s.rxsFrame s.cnt s.out s.txAccept))
      exact h s.rxsOcc s.rxsFrame s.cnt s.out accept
    · by_cases hrefresh : i = .refresh
      · subst hrefresh
        exact exec_refresh_at_accept hexec accept (hi.resolve_left (not_not_intro rfl))
      · have hpin : { t with txAccept := accept } = { t with time := s.time, txAccept := accept } := by rw [← htime]
        rw [hpin]
        exact exec_at_levels hexec hwrite hrefresh s.time accept

end Sys2Proof.Machine
end
